-- ==== Sys2Proof/Word.lean ====
section
/-! DEFINITION. The word types of KCPE: bytes and 16-bit quantities (spec R8). -/

namespace Sys2Proof

/-- A byte: an integer 0..255, bit 0 least significant (R8). -/
abbrev Byte := BitVec 8

/-- A 16-bit quantity: `u16` read with `toNat`, `i16` read with `toInt` (R8). -/
abbrev Word16 := BitVec 16

/-- A byte sequence (R9). -/
abbrev Bytes := List Byte

end Sys2Proof
end

