-- ==== Sys2Proof/Syntax.lean ====
section
/-! DEFINITION. The operations of KCPE as data: one constructor per row of `spec/opcode_table.json` (R117). -/

namespace Sys2Proof

/-- The 13 record types (R22). -/
inductive RecType where
  | core | ir | dockIr | inertia | cliff | current | magnet | hw | fw | time | gyro | eeprom | gpin
  deriving DecidableEq, Repr, Inhabited

/-- The operand of `GETWHEEL` (R212): the two names KCPE knows, or any other word. -/
inductive WheelName where
  | left
  | right
  | other (name : List Char)
  deriving DecidableEq, Repr, Inhabited

/-- The tagged command value given to `Generic` (R113). What an `other` command is belongs to the host:
KCPE only carries it into an error report. -/
inductive Cmd where
  | baseControl (speed radius : Word16)
  | other (token : Nat)
  deriving DecidableEq, Repr, Inhabited

/-- The operation set of R117. -/
inductive Instr where
  /-- `FR.BYTE(b)`, R130 to R136 -/
  | frByte (b : Byte)
  /-- `FR.UPDATE(bytes)`, R138 -/
  | frUpdate (bytes : Bytes)
  /-- `DP.PASS(body)`, R160 to R162 -/
  | dpPass (body : Bytes)
  /-- `SP.CORE(id, w)`, R166 -/
  | spCore (id : Byte) (w : Nat)
  /-- `SP.IR(id, w)`, R167 -/
  | spIr (id : Byte) (w : Nat)
  /-- `SP.DOCKIR(id, w)`, R168 -/
  | spDockIr (id : Byte) (w : Nat)
  /-- `SP.INERTIA(id, w)`, R169 -/
  | spInertia (id : Byte) (w : Nat)
  /-- `SP.CLIFF(id, w)`, R170 -/
  | spCliff (id : Byte) (w : Nat)
  /-- `SP.CURRENT(id, w)`, R171 -/
  | spCurrent (id : Byte) (w : Nat)
  /-- `SP.MAGNET(id, w)`, R172 -/
  | spMagnet (id : Byte) (w : Nat)
  /-- `SP.HW(id, w)`, R173 -/
  | spHw (id : Byte) (w : Nat)
  /-- `SP.FW(id, w)`, R174 -/
  | spFw (id : Byte) (w : Nat)
  /-- `SP.TIME(id, w)`, R175 -/
  | spTime (id : Byte) (w : Nat)
  /-- `SP.GYRO(id, w)`, R176 -/
  | spGyro (id : Byte) (w : Nat)
  /-- `SP.EEPROM(id, w)`, R177 -/
  | spEeprom (id : Byte) (w : Nat)
  /-- `SP.GPIN(id, w)`, R178 -/
  | spGpin (id : Byte) (w : Nat)
  /-- `SP.UNKNOWN(id)`, R180 -/
  | spUnknown (id : Byte)
  /-- `SP.TRUNC(id)`, R181 -/
  | spTrunc (id : Byte)
  /-- `DP.NOTIFY`, R182 -/
  | dpNotify
  /-- `OD.UPDATE(ts, el, er)`, R200 to R209 -/
  | odUpdate (ts el er : Word16)
  /-- `GETWHEEL(name)`, R212 -/
  | getWheel (name : WheelName)
  /-- `GETPOSE`, R213 -/
  | getPose
  /-- `CE.VELFRAME(speed, radius)`, R242 -/
  | ceVelframe (speed radius : Word16)
  /-- `SETVEL`: the event `SetVelocity(v, w)`, R246 -/
  | setVel (v w : Rat)
  /-- `GENERIC`: the event `Generic(cmd)` with the host serializer's answer, R249; `none` is `fail` -/
  | generic (cmd : Cmd) (answer : Option Bytes)
  /-- `GETCMD`, R254 -/
  | getCmd
  /-- `RUN`, R271 -/
  | run
  /-- `STOP`, R273 -/
  | stop
  /-- `ITER`: the event `Iter(bytes)`, R274 to R279 -/
  | iter (bytes : Bytes)
  /-- `GETREC(T)`, R282 -/
  | getRec (t : RecType)
  deriving DecidableEq, Repr

/-- What a header id selects (R101, R162): a decode of one record type, or one of the two rejects. -/
inductive SubOp where
  | decode (t : RecType) (id : Byte) (w : Nat)
  | unknown (id : Byte)
  | trunc (id : Byte)
  deriving DecidableEq, Repr

end Sys2Proof
end

