-- ==== Sys2Proof/Config.lean ====
section
/-! DEFINITION. The configuration registers `CFG` (R5, R43), and the free values of the model as opaque constants. -/

namespace Sys2Proof

/-- The arithmetic operations of `Num` whose result a number system may round (R10). -/
inductive NumOp where
  | add | sub | mul | div
  deriving DecidableEq, Repr, Inhabited

/-- `NUMERICS` (R5, R10, D7): exact rationals, the spec's reference choice, or an unspecified arithmetic
whose four operations answer `Config.otherNum`. DESIGN CHOICE, log 6. -/
inductive Numerics where
  | exact
  | other (n : Nat)
  deriving DecidableEq, Repr, Inhabited

/-- `ROUND` (R5, R11, D8, U6): nearest integer with ties away from zero, the spec's choice, or nearest
with an unspecified choice at exact ties. DESIGN CHOICE, log 7. -/
inductive Rounding where
  | tiesAway
  | other (n : Nat)
  deriving DecidableEq, Repr, Inhabited

/-- `FK` (R5, R207, D6): the suggested formula of R214 or an unspecified function. Log 8. -/
inductive Kinematics where
  | firstOrder
  | other (n : Nat)
  deriving DecidableEq, Repr, Inhabited

/-- The `f` of a `Variable(f)` width (R100, R165): one plus the first body byte (G6), or an unspecified
function. Log 9. -/
inductive WidthFn where
  | lengthByte
  | other (n : Nat)
  deriving DecidableEq, Repr, Inhabited

/-- A width rule (R100): `Fixed(n)` or `Variable(f)`. -/
inductive WidthRule where
  | fixed (n : Nat)
  | byRest (f : WidthFn)
  deriving DecidableEq, Repr, Inhabited

/-- One entry of the Registry (R100). -/
structure RegEntry where
  id : Byte
  type : RecType
  width : WidthRule
  deriving DecidableEq, Repr, Inhabited

/-- A triple of `Num`: `(dx, dy, dtheta)` or `(vx, vy, vtheta)` (R38). -/
structure Triple where
  x : Rat
  y : Rat
  theta : Rat
  deriving DecidableEq, Repr, Inhabited

/-- The configuration registers: the OPEN and decided parameters of R5. The parameters R5 fixes are the
constants below. -/
structure Config where
  lenMin : Nat
  lenMax : Nat
  checkEn : Bool
  reg : List RegEntry
  idCore : Option Byte
  offTs : Nat
  offEncL : Nat
  offEncR : Nat
  wheelbase : Rat
  wheelRadius : Rat
  tickToRad : Rat
  tickToMm : Rat
  fk : Kinematics
  numerics : Numerics
  rounding : Rounding
  deriving DecidableEq, Repr, Inhabited

/-- `STX0`, fixed by KC (R5). -/
def Config.stx0 : Byte := 0xAA
/-- `STX1`, fixed by KC (R5). -/
def Config.stx1 : Byte := 0x55
/-- `CS_LEN`, fixed by KC (R5). -/
abbrev Config.csLen : Nat := 1
/-- `LEN_W`, fixed by KC (R5). -/
def Config.lenW : Nat := 1
/-- `VEL_ID`, fixed by KC (R5). -/
def Config.velId : Byte := 0x01
/-- `VEL_LEN`, fixed by KC (R5). -/
def Config.velLen : Byte := 5

/-- FREE VALUE (log 6): the results of an unspecified arithmetic (`Numerics.other`). -/
opaque Config.otherNum : Nat → NumOp → Rat → Rat → Rat

/-- FREE VALUE (log 11): a quotient by zero, which R10's guards keep every exact rule away from. -/
opaque Config.divByZero : Rat → Rat

/-- FREE VALUE (log 7): whether an unspecified rounding takes the upper neighbour at an exact tie. -/
opaque Config.tieUp : Nat → Rat → Bool

/-- FREE VALUE (log 8): an unspecified forward-kinematics function, of `WHEELBASE`, `WHEEL_RADIUS` and the
two wheel angles (R5). -/
opaque Config.otherFk : Nat → Rat → Rat → Rat → Rat → Triple

/-- FREE VALUE (log 9): an unspecified width function of the bytes that follow the header id; `none` is
`fail` (R100). -/
opaque Config.otherWidth : Nat → Bytes → Option Nat

/-- FREE VALUE (log 5): a byte of a CORE view that lies past the end of the stored body. -/
opaque Config.freeByte : Nat → Bytes → Nat → Byte

/-- The configuration KCPE was constructed with (R340): chosen by the host, nothing known of it. Log 2. -/
opaque Config.device : Config

/-- `CFG0`, the spec's test configuration (`95_test_vectors.md` section 1). Used to run vectors only. -/
def Config.cfg0 : Config where
  lenMin := 1
  lenMax := 64
  checkEn := true
  reg := [⟨0x01, .core, .fixed 15⟩, ⟨0x02, .ir, .fixed 3⟩, ⟨0x03, .dockIr, .fixed 3⟩,
    ⟨0x04, .inertia, .fixed 7⟩, ⟨0x05, .cliff, .fixed 6⟩, ⟨0x06, .current, .fixed 2⟩,
    ⟨0x07, .magnet, .fixed 2⟩, ⟨0x08, .time, .fixed 2⟩, ⟨0x0A, .hw, .fixed 4⟩,
    ⟨0x0B, .fw, .fixed 4⟩, ⟨0x0D, .gyro, .fixed 8⟩, ⟨0x0F, .eeprom, .fixed 4⟩,
    ⟨0x10, .gpin, .fixed 16⟩]
  idCore := some 0x01
  offTs := 0
  offEncL := 5
  offEncR := 7
  wheelbase := 23 / 100
  wheelRadius := 7 / 200
  tickToRad := 1 / 400
  tickToMm := 7 / 80
  fk := .firstOrder
  numerics := .exact
  rounding := .tiesAway

end Sys2Proof
end

