-- ==== Sys2Proof/Machine/Bytes.lean ====
section
/-! DEFINITION. Byte-order, sign and checksum helpers (R8, R9, R64, R91, R104). -/

namespace Sys2Proof.Machine

/-- The exclusive-or of all bytes of a sequence, 0 for the empty one (R9). -/
def xor8 : Bytes → Byte
  | [] => 0
  | b :: bs => b ^^^ xor8 bs

/-- Two bytes, low byte first, as a 16-bit quantity (R8, R64). -/
def u16le (lo hi : Byte) : Word16 := hi ++ lo

/-- The two bytes of a 16-bit quantity, low byte first (R8, R64). -/
def le16 (v : Word16) : Bytes := [v.extractLsb' 0 8, v.extractLsb' 8 8]

/-- Wraparound-correct signed 16-bit difference (R8): the difference modulo 65536 read as `i16`. -/
def sdiff16 (a b : Word16) : Int := (a - b).toInt

/-- Does an integer fit `i16` (R8)? -/
def fitsI16 (i : Int) : Bool := decide (-32768 ≤ i) && decide (i ≤ 32767)

/-- The 16-bit register image of an integer (`to_u16`, R8); used on integers that fit only. -/
def toI16 (i : Int) : Word16 := BitVec.ofInt 16 i

/-- A frame around a payload (R90, R112, R240): start bytes, length byte, payload, checksum byte. -/
def frameOf (p : Bytes) : Bytes :=
  let n : Byte := BitVec.ofNat 8 p.length
  [Config.stx0, Config.stx1, n] ++ p ++ [xor8 (n :: p)]

end Sys2Proof.Machine
end

