-- ==== Sys2Proof/WellFormed.lean ====
section
/-! DEFINITION. Which operations are well formed: their operands are ones the spec's formats can carry. -/

namespace Sys2Proof

/-- A framed body: length byte, as many payload bytes, one checksum byte (R92). -/
def framedBodyOk : Bytes → Bool
  | [] => false
  | l :: rest => rest.length == l.toNat + 1

/-- A sub-packet body fits a payload beside its header id (R90, R95): the payload has at most 255 bytes. -/
def widthOk (w : Nat) : Bool := decide (w ≤ 254)

/-- Is an integer power of ten a multiple of the denominator, for one of the first `fuel + 1` powers? -/
def decimalWithin (q : Rat) : Nat → Bool
  | 0 => q.den == 1
  | fuel + 1 => q.den == 1 || decimalWithin (q * 10) fuel

/-- A wheel name that is not one of the two known ones is a word of its own: not empty, without spaces,
and neither `left` nor `right` (R212). -/
def wheelNameOk : WheelName → Bool
  | .left => true
  | .right => true
  | .other n =>
    !n.isEmpty && !n.contains ' ' && n != ['l', 'e', 'f', 't'] && n != ['r', 'i', 'g', 'h', 't']

/-- Operands the spec's formats can carry (R92, R95, R212). -/
def Instr.wellFormed : Instr → Bool
  | .frByte _ => true
  | .frUpdate _ => true
  | .dpPass body => framedBodyOk body
  | .spCore _ w => widthOk w
  | .spIr _ w => widthOk w
  | .spDockIr _ w => widthOk w
  | .spInertia _ w => widthOk w
  | .spCliff _ w => widthOk w
  | .spCurrent _ w => widthOk w
  | .spMagnet _ w => widthOk w
  | .spHw _ w => widthOk w
  | .spFw _ w => widthOk w
  | .spTime _ w => widthOk w
  | .spGyro _ w => widthOk w
  | .spEeprom _ w => widthOk w
  | .spGpin _ w => widthOk w
  | .spUnknown _ => true
  | .spTrunc _ => true
  | .dpNotify => true
  | .odUpdate _ _ _ => true
  | .getWheel name => wheelNameOk name
  | .getPose => true
  | .ceVelframe _ _ => true
  | .setVel _ _ => true
  | .generic _ _ => true
  | .getCmd => true
  | .run => true
  | .stop => true
  | .iter _ => true
  | .getRec _ => true

/-- The nine input events of R6; the other operations are performed inside an event. -/
def Instr.isEvent : Instr → Bool
  | .frByte _ => false
  | .frUpdate _ => false
  | .dpPass _ => false
  | .spCore _ _ => false
  | .spIr _ _ => false
  | .spDockIr _ _ => false
  | .spInertia _ _ => false
  | .spCliff _ _ => false
  | .spCurrent _ _ => false
  | .spMagnet _ _ => false
  | .spHw _ _ => false
  | .spFw _ _ => false
  | .spTime _ _ => false
  | .spGyro _ _ => false
  | .spEeprom _ _ => false
  | .spGpin _ _ => false
  | .spUnknown _ => false
  | .spTrunc _ => false
  | .dpNotify => false
  | .odUpdate _ _ _ => false
  | .getWheel _ => true
  | .getPose => true
  | .ceVelframe _ _ => false
  | .setVel _ _ => true
  | .generic _ _ => true
  | .getCmd => true
  | .run => true
  | .stop => true
  | .iter _ => true
  | .getRec _ => true

/-- Can a stimulus line carry the operation (R116)? Besides well-formedness, the decimals of `SETVEL` must
be finite (here: at most 18 places), a line names an `Other` command without a token, and a wheel's name
is written in one-byte characters. -/
def Instr.writable (i : Instr) : Bool :=
  i.wellFormed &&
  match i with
  | .setVel v w => decimalWithin v 18 && decimalWithin w 18
  | .generic (.other n) _ => n == 0
  | .getWheel (.other n) => n.all (fun ch => decide (ch.toNat < 256))
  | _ => true

end Sys2Proof
end

