-- ==== Sys2Proof/Decode.lean ====
section
/-! DEFINITION. Decoding and encoding: header ids by the Registry (R101, R162), command frames (R110, R112), the opcode table's words (R118), and the stimulus lines (R116). -/

namespace Sys2Proof

/-! ### Header ids: the inbound operation map -/

/-- `CFG.REG[id]` (R100); `none` when `id` is not in its domain. -/
def regLookup (c : Config) (id : Byte) : Option RegEntry := c.reg.find? (fun e => e.id == id)

/-- The `f` of a `Variable(f)` width (R100). -/
def widthFn (f : WidthFn) (rest : Bytes) : Option Nat :=
  match f with
  | .lengthByte =>
    match rest with
    | [] => none
    | l :: _ => some (1 + l.toNat)
  | .other n => Config.otherWidth n rest

/-- `width(wr, rest)` (R165). -/
def widthOf (r : WidthRule) (rest : Bytes) : Option Nat :=
  match r with
  | .fixed n => some n
  | .byRest f => widthFn f rest

/-- What a popped header id selects, `rest` being `dp_buf` after it (R101, R162): unknown first (R312),
then whether the width fits before the checksum byte. -/
def selectSub (c : Config) (id : Byte) (rest : Bytes) : SubOp :=
  let avail := rest.length - Config.csLen
  match regLookup c id with
  | none => .unknown id
  | some e =>
    match widthOf e.width (rest.take avail) with
    | none => .trunc id
    | some w => if w ≤ avail then .decode e.type id w else .trunc id

/-- The decode operation of each record type (R101). -/
def decodeInstr (t : RecType) (id : Byte) (w : Nat) : Instr :=
  match t with
  | .core => .spCore id w
  | .ir => .spIr id w
  | .dockIr => .spDockIr id w
  | .inertia => .spInertia id w
  | .cliff => .spCliff id w
  | .current => .spCurrent id w
  | .magnet => .spMagnet id w
  | .hw => .spHw id w
  | .fw => .spFw id w
  | .time => .spTime id w
  | .gyro => .spGyro id w
  | .eeprom => .spEeprom id w
  | .gpin => .spGpin id w

/-- The operation a header id selects, as an operation of the table (R101). -/
def subInstr : SubOp → Instr
  | .decode t id w => decodeInstr t id w
  | .unknown id => .spUnknown id
  | .trunc id => .spTrunc id

/-- Decode the front of `dp_buf` (R162); nothing to decode when it is empty. -/
def decodeHeader (c : Config) : Bytes → Option Instr
  | [] => none
  | id :: rest => some (subInstr (selectSub c id rest))

/-- A sub-packet on the wire (R95). -/
def encodeSub (id : Byte) (body : Bytes) : Bytes := id :: body

/-! ### Command frames -/

/-- Why bytes or a line are no operation. -/
inductive Reject where
  | noStart
  | frameLength
  | frameChecksum
  | emptyLine
  | unknownName
  | operandCount
  | badOperand
  deriving DecidableEq, Repr

/-- The result of decoding: an operation, or a rejection by name. -/
inductive Decoded where
  | ok (i : Instr)
  | reject (r : Reject)
  deriving DecidableEq, Repr

/-- The operation a command payload belongs to (R110, R112): five bytes that begin with the velocity
command id are a velocity command, any other payload is a serialized generic command. -/
def commandOf : Bytes → Instr
  | [i, s0, s1, r0, r1] =>
    if i = Config.velId then .ceVelframe (Machine.u16le s0 s1) (Machine.u16le r0 r1)
    else .generic (.other 0) (some [i, s0, s1, r0, r1])
  | p => .generic (.other 0) (some p)

/-- Read a whole outbound frame back (R90, R91): start bytes, length, checksum, then the payload. -/
def decodeCommand : Bytes → Decoded
  | b0 :: b1 :: n :: rest =>
    if b0 ≠ Config.stx0 ∨ b1 ≠ Config.stx1 then .reject .noStart
    else if rest.length ≠ n.toNat + Config.csLen then .reject .frameLength
    else if Machine.xor8 (n :: rest) ≠ 0 then .reject .frameChecksum
    else .ok (commandOf (rest.take n.toNat))
  | _ => .reject .noStart

/-! ### The opcode table's words -/

/-- The bytes of a table word in wire order: the table reads its match as one number whose most
significant byte comes first on the wire (R118). Log 14. -/
def tableBytes : Nat → Nat → Bytes
  | 0, _ => []
  | n + 1, w => BitVec.ofNat 8 (w / 256 ^ n) :: tableBytes n w

/-- Selection by the table's match and mask (R118): the four bytes that open a velocity frame, else the
start sequence of a received frame, whose first byte is FR.BYTE's operand. -/
def selectByMatch : Bytes → Option Instr
  | b0 :: b1 :: b2 :: b3 :: s0 :: s1 :: r0 :: r1 :: _ =>
    if b0 = Config.stx0 ∧ b1 = Config.stx1 then
      if b2 = Config.velLen ∧ b3 = Config.velId then
        some (.ceVelframe (Machine.u16le s0 s1) (Machine.u16le r0 r1))
      else some (.frByte b0)
    else none
  | _ => none

/-- What follows a header id given as a table word: zeros, as many as the widest sub-packet of `CFG0` and its
checksum byte take. -/
def zeroBody : Bytes := List.replicate 17 0

/-- The operation of a table word, the bytes above `nbits` zero: a word of one byte is a header id, read with
the Registry of `CFG0` (the table's `match_cfg0`, log 14); a longer one is the front of a frame, up to the nine
bytes of the longest fixed frame (R110). -/
def decodeTableWord (nbits w : Nat) : Option Instr :=
  if nbits = 8 then decodeHeader Config.cfg0 (BitVec.ofNat 8 w :: zeroBody)
  else selectByMatch (tableBytes (nbits / 8) w ++ List.replicate (9 - nbits / 8) 0)

/-! ### Stimulus lines: words -/

/-- The operation names of R117. -/
inductive Op where
  | frByte | frUpdate | dpPass
  | spCore | spIr | spDockIr | spInertia | spCliff | spCurrent | spMagnet | spHw | spFw | spTime
  | spGyro | spEeprom | spGpin | spUnknown | spTrunc
  | dpNotify | odUpdate | getWheel | getPose | ceVelframe | setVel | generic | getCmd | run | stop
  | iter | getRec
  deriving DecidableEq, Repr

/-- Every operation name. -/
def allOps : List Op :=
  [.frByte, .frUpdate, .dpPass, .spCore, .spIr, .spDockIr, .spInertia, .spCliff, .spCurrent,
    .spMagnet, .spHw, .spFw, .spTime, .spGyro, .spEeprom, .spGpin, .spUnknown, .spTrunc] ++
  [.dpNotify, .odUpdate, .getWheel, .getPose, .ceVelframe, .setVel, .generic, .getCmd, .run, .stop,
    .iter, .getRec]

/-- The name of an operation (R117). -/
def opName : Op → List Char
  | .frByte => "FR.BYTE".toList
  | .frUpdate => "FR.UPDATE".toList
  | .dpPass => "DP.PASS".toList
  | .spCore => "SP.CORE".toList
  | .spIr => "SP.IR".toList
  | .spDockIr => "SP.DOCKIR".toList
  | .spInertia => "SP.INERTIA".toList
  | .spCliff => "SP.CLIFF".toList
  | .spCurrent => "SP.CURRENT".toList
  | .spMagnet => "SP.MAGNET".toList
  | .spHw => "SP.HW".toList
  | .spFw => "SP.FW".toList
  | .spTime => "SP.TIME".toList
  | .spGyro => "SP.GYRO".toList
  | .spEeprom => "SP.EEPROM".toList
  | .spGpin => "SP.GPIN".toList
  | .spUnknown => "SP.UNKNOWN".toList
  | .spTrunc => "SP.TRUNC".toList
  | .dpNotify => "DP.NOTIFY".toList
  | .odUpdate => "OD.UPDATE".toList
  | .getWheel => "GETWHEEL".toList
  | .getPose => "GETPOSE".toList
  | .ceVelframe => "CE.VELFRAME".toList
  | .setVel => "SETVEL".toList
  | .generic => "GENERIC".toList
  | .getCmd => "GETCMD".toList
  | .run => "RUN".toList
  | .stop => "STOP".toList
  | .iter => "ITER".toList
  | .getRec => "GETREC".toList

/-- The operation a word names. -/
def readOp (w : List Char) : Option Op := allOps.find? (fun o => opName o == w)

/-- The mnemonic of a record type (R22). -/
def recName : RecType → List Char
  | .core => "CORE".toList
  | .ir => "IR".toList
  | .dockIr => "DOCKIR".toList
  | .inertia => "INERTIA".toList
  | .cliff => "CLIFF".toList
  | .current => "CURRENT".toList
  | .magnet => "MAGNET".toList
  | .hw => "HW".toList
  | .fw => "FW".toList
  | .time => "TIME".toList
  | .gyro => "GYRO".toList
  | .eeprom => "EEPROM".toList
  | .gpin => "GPIN".toList

/-- Every record type, in the order of R22. -/
def allRecTypes : List RecType :=
  [.core, .ir, .dockIr, .inertia, .cliff, .current, .magnet, .hw, .fw, .time, .gyro, .eeprom, .gpin]

/-- The record type a word names. -/
def readRec (w : List Char) : Option RecType := allRecTypes.find? (fun t => recName t == w)

/-- The hexadecimal digits, capital as the examples write them. -/
def hexDigits : List Char := "0123456789ABCDEF".toList

/-- A digit's character. -/
def digitChar (n : Nat) : Char := hexDigits.getD n '0'

/-- A digit's value below a base. -/
def readDigit (base : Nat) (ch : Char) : Option Nat :=
  let i := hexDigits.idxOf ch
  if i < base then some i else none

/-- A byte as two hexadecimal digits (R8, R116). -/
def showByte (b : Byte) : List Char := [digitChar (b.toNat / 16), digitChar (b.toNat % 16)]

/-- Two hexadecimal digits as a byte. -/
def readByte : List Char → Option Byte
  | [h, l] =>
    match readDigit 16 h, readDigit 16 l with
    | some x, some y => some (BitVec.ofNat 8 (16 * x + y))
    | _, _ => none
  | _ => none

/-- A list of byte words. -/
def readBytes : List (List Char) → Option Bytes
  | [] => some []
  | w :: ws =>
    match readByte w, readBytes ws with
    | some b, some bs => some (b :: bs)
    | _, _ => none

/-- Decimal digits of a number, put before `acc`; `fuel` bounds their count. -/
def showNatInto : Nat → Nat → List Char → List Char
  | 0, _, acc => acc
  | fuel + 1, n, acc =>
    if n < 10 then digitChar n :: acc else showNatInto fuel (n / 10) (digitChar (n % 10) :: acc)

/-- A number in decimal. -/
def showNat (n : Nat) : List Char := showNatInto (n + 1) n []

/-- The value of decimal digits after `acc`. -/
def readNatFrom (acc : Nat) : List Char → Option Nat
  | [] => some acc
  | ch :: cs =>
    match readDigit 10 ch with
    | some d => readNatFrom (10 * acc + d) cs
    | none => none

/-- A decimal number: one digit at least. -/
def readNat : List Char → Option Nat
  | [] => none
  | cs => readNatFrom 0 cs

/-- A signed decimal number. -/
def showInt (i : Int) : List Char := if i < 0 then '-' :: showNat i.natAbs else showNat i.natAbs

/-- Read a signed decimal number. -/
def readInt : List Char → Option Int
  | '-' :: cs =>
    match readNat cs with
    | some n => some (-(n : Int))
    | none => none
  | cs =>
    match readNat cs with
    | some n => some (n : Int)
    | none => none

/-- An `i16` operand (R8): anything outside the range is rejected. -/
def readI16 (w : List Char) : Option Word16 :=
  match readInt w with
  | some i => if Machine.fitsI16 i then some (Machine.toI16 i) else none
  | none => none

/-- A `u16` operand (R8): anything outside the range is rejected. -/
def readU16 (w : List Char) : Option Word16 :=
  match readNat w with
  | some n => if n < 65536 then some (BitVec.ofNat 16 n) else none
  | none => none

/-- How many places after the point a decimal needs, at most `fuel`. -/
def decimalPlaces (q : Rat) : Nat → Nat
  | 0 => 0
  | fuel + 1 => if q.den == 1 then 0 else decimalPlaces (q * 10) fuel + 1

/-- Put zeros before digits until there are `n`. -/
def padLeft (n : Nat) (cs : List Char) : List Char := List.replicate (n - cs.length) '0' ++ cs

/-- A non-negative decimal with `k` places. -/
def showPlaces (k m : Nat) : List Char :=
  let ds := padLeft (k + 1) (showNat m)
  ds.take (ds.length - k) ++ (if k = 0 then [] else '.' :: ds.drop (ds.length - k))

/-- A decimal rational (R116), for those with at most 18 places. -/
def showRat (q : Rat) : List Char :=
  let k := decimalPlaces q 18
  let m := (q * 10 ^ k).num
  if m < 0 then '-' :: showPlaces k m.natAbs else showPlaces k m.natAbs

/-- A decimal rational without its sign: digits, then perhaps a point and more digits. -/
def readPlaces (w : List Char) : Option Rat :=
  let whole := w.takeWhile (fun ch => ch != '.')
  match w.dropWhile (fun ch => ch != '.') with
  | [] =>
    match readNat whole with
    | some n => some (n : Rat)
    | none => none
  | _ :: frac =>
    match readNat whole, readNat frac with
    | some a, some b => some ((a : Rat) + (b : Rat) / 10 ^ frac.length)
    | _, _ => none

/-- A decimal rational (R116). -/
def readRat : List Char → Option Rat
  | '-' :: cs =>
    match readPlaces cs with
    | some q => some (-q)
    | none => none
  | cs => readPlaces cs

/-- A wheel's name (R212, R116). -/
def readWheel (w : List Char) : WheelName :=
  if w = "left".toList then .left else if w = "right".toList then .right else .other w

/-- A wheel's name as a word. -/
def showWheel : WheelName → List Char
  | .left => "left".toList
  | .right => "right".toList
  | .other w => w

/-- What the host serializer returns: `OK <hex bytes>` or `FAIL` (R116). -/
def readAnswer : List (List Char) → Option (Option Bytes)
  | w :: ws =>
    if w = "OK".toList then
      match readBytes ws with
      | some p => some (some p)
      | none => none
    else if w = "FAIL".toList ∧ ws = [] then some none
    else none
  | [] => none

/-- The serializer's answer as words. -/
def showAnswer : Option Bytes → List (List Char)
  | some p => "OK".toList :: p.map showByte
  | none => ["FAIL".toList]

/-! ### Stimulus lines: operations -/

/-- An operation, or the rejection that names what was wrong. -/
def Decoded.ofOption (r : Reject) : Option Instr → Decoded
  | some i => .ok i
  | none => .reject r

/-- The operands of a sub-packet operation: id and width. -/
def readSub (f : Byte → Nat → Instr) (w0 w1 : List Char) : Option Instr :=
  match readByte w0, readNat w1 with
  | some id, some w => some (f id w)
  | _, _ => none

/-- The operands of `GENERIC` (R116). -/
def readGeneric : List (List Char) → Decoded
  | kind :: ws =>
    if kind = "BASE".toList then
      match ws with
      | w0 :: w1 :: slash :: rest =>
        if slash ≠ ['/'] then .reject .badOperand
        else
          match readI16 w0, readI16 w1, readAnswer rest with
          | some s, some r, some a => .ok (.generic (.baseControl s r) a)
          | _, _, _ => .reject .badOperand
      | _ => .reject .operandCount
    else if kind = "OTHER".toList then
      match ws with
      | slash :: rest =>
        if slash ≠ ['/'] then .reject .badOperand
        else
          match readAnswer rest with
          | some a => .ok (.generic (.other 0) a)
          | none => .reject .badOperand
      | _ => .reject .operandCount
    else .reject .badOperand
  | [] => .reject .operandCount

/-- An operation that takes no operand. -/
def readNone (i : Instr) : List (List Char) → Decoded
  | [] => .ok i
  | _ => .reject .operandCount

/-- An operation that takes one operand. -/
def readOne (f : List Char → Option Instr) : List (List Char) → Decoded
  | [w] => .ofOption .badOperand (f w)
  | _ => .reject .operandCount

/-- An operation that takes two operands. -/
def readTwo (f : List Char → List Char → Option Instr) : List (List Char) → Decoded
  | [w0, w1] => .ofOption .badOperand (f w0 w1)
  | _ => .reject .operandCount

/-- An operation that takes three operands. -/
def readThree (f : List Char → List Char → List Char → Option Instr) : List (List Char) → Decoded
  | [w0, w1, w2] => .ofOption .badOperand (f w0 w1 w2)
  | _ => .reject .operandCount

/-- The operands of an operation's line (R116). The lines of the operations that are no input events are
written in the same style; log 15. -/
def readOperands (o : Op) (ws : List (List Char)) : Decoded :=
  match o with
  | .frByte => readOne (fun w => (readByte w).map .frByte) ws
  | .frUpdate => .ofOption .badOperand ((readBytes ws).map .frUpdate)
  | .dpPass => .ofOption .badOperand ((readBytes ws).map .dpPass)
  | .spCore => readTwo (readSub .spCore) ws
  | .spIr => readTwo (readSub .spIr) ws
  | .spDockIr => readTwo (readSub .spDockIr) ws
  | .spInertia => readTwo (readSub .spInertia) ws
  | .spCliff => readTwo (readSub .spCliff) ws
  | .spCurrent => readTwo (readSub .spCurrent) ws
  | .spMagnet => readTwo (readSub .spMagnet) ws
  | .spHw => readTwo (readSub .spHw) ws
  | .spFw => readTwo (readSub .spFw) ws
  | .spTime => readTwo (readSub .spTime) ws
  | .spGyro => readTwo (readSub .spGyro) ws
  | .spEeprom => readTwo (readSub .spEeprom) ws
  | .spGpin => readTwo (readSub .spGpin) ws
  | .spUnknown => readOne (fun w => (readByte w).map .spUnknown) ws
  | .spTrunc => readOne (fun w => (readByte w).map .spTrunc) ws
  | .dpNotify => readNone .dpNotify ws
  | .odUpdate =>
    readThree (fun a b d =>
      match readU16 a, readU16 b, readU16 d with
      | some ts, some el, some er => some (.odUpdate ts el er)
      | _, _, _ => none) ws
  | .getWheel => readOne (fun w => some (.getWheel (readWheel w))) ws
  | .getPose => readNone .getPose ws
  | .ceVelframe =>
    readTwo (fun a b =>
      match readI16 a, readI16 b with
      | some s, some r => some (.ceVelframe s r)
      | _, _ => none) ws
  | .setVel =>
    readTwo (fun a b =>
      match readRat a, readRat b with
      | some v, some w => some (.setVel v w)
      | _, _ => none) ws
  | .generic => readGeneric ws
  | .getCmd => readNone .getCmd ws
  | .run => readNone .run ws
  | .stop => readNone .stop ws
  | .iter => .ofOption .badOperand ((readBytes ws).map .iter)
  | .getRec => readOne (fun w => (readRec w).map .getRec) ws

/-- Decode a line given as its words (R116). -/
def decodeWords : List (List Char) → Decoded
  | [] => .reject .emptyLine
  | w :: ws =>
    match readOp w with
    | none => .reject .unknownName
    | some o => readOperands o ws

/-- The words between spaces; repeated spaces make no word. -/
def splitWords : List Char → List (List Char)
  | [] => []
  | ch :: cs =>
    if ch = ' ' then splitWords cs
    else
      match cs with
      | [] => [[ch]]
      | d :: _ =>
        if d = ' ' then [ch] :: splitWords cs
        else
          match splitWords cs with
          | [] => [[ch]]
          | w :: ws => (ch :: w) :: ws

/-- Words with one space between them. -/
def joinWords : List (List Char) → List Char
  | [] => []
  | [w] => w
  | w :: v :: ws => w ++ ' ' :: joinWords (v :: ws)

/-- Decode a stimulus line (R116): total on any characters, rejecting by name. -/
def decodeLine (cs : List Char) : Decoded := decodeWords (splitWords cs)

/-- Decode a stimulus line given as bytes, one character a byte. -/
def decode (bs : Bytes) : Decoded := decodeLine (bs.map (fun b => Char.ofNat b.toNat))

/-! ### The encoders -/

/-- The name of an operation. -/
def opOf : Instr → Op
  | .frByte _ => .frByte
  | .frUpdate _ => .frUpdate
  | .dpPass _ => .dpPass
  | .spCore _ _ => .spCore
  | .spIr _ _ => .spIr
  | .spDockIr _ _ => .spDockIr
  | .spInertia _ _ => .spInertia
  | .spCliff _ _ => .spCliff
  | .spCurrent _ _ => .spCurrent
  | .spMagnet _ _ => .spMagnet
  | .spHw _ _ => .spHw
  | .spFw _ _ => .spFw
  | .spTime _ _ => .spTime
  | .spGyro _ _ => .spGyro
  | .spEeprom _ _ => .spEeprom
  | .spGpin _ _ => .spGpin
  | .spUnknown _ => .spUnknown
  | .spTrunc _ => .spTrunc
  | .dpNotify => .dpNotify
  | .odUpdate _ _ _ => .odUpdate
  | .getWheel _ => .getWheel
  | .getPose => .getPose
  | .ceVelframe _ _ => .ceVelframe
  | .setVel _ _ => .setVel
  | .generic _ _ => .generic
  | .getCmd => .getCmd
  | .run => .run
  | .stop => .stop
  | .iter _ => .iter
  | .getRec _ => .getRec

/-- Id and width as words. -/
def showSub (id : Byte) (w : Nat) : List (List Char) := [showByte id, showNat w]

/-- The operands of an operation as words (R116). -/
def operandWords : Instr → List (List Char)
  | .frByte b => [showByte b]
  | .frUpdate bs => bs.map showByte
  | .dpPass body => body.map showByte
  | .spCore id w => showSub id w
  | .spIr id w => showSub id w
  | .spDockIr id w => showSub id w
  | .spInertia id w => showSub id w
  | .spCliff id w => showSub id w
  | .spCurrent id w => showSub id w
  | .spMagnet id w => showSub id w
  | .spHw id w => showSub id w
  | .spFw id w => showSub id w
  | .spTime id w => showSub id w
  | .spGyro id w => showSub id w
  | .spEeprom id w => showSub id w
  | .spGpin id w => showSub id w
  | .spUnknown id => [showByte id]
  | .spTrunc id => [showByte id]
  | .dpNotify => []
  | .odUpdate ts el er => [showNat ts.toNat, showNat el.toNat, showNat er.toNat]
  | .getWheel n => [showWheel n]
  | .getPose => []
  | .ceVelframe s r => [showInt s.toInt, showInt r.toInt]
  | .setVel v w => [showRat v, showRat w]
  | .generic (.baseControl s r) a =>
    ["BASE".toList, showInt s.toInt, showInt r.toInt, ['/']] ++ showAnswer a
  | .generic (.other _) a => ["OTHER".toList, ['/']] ++ showAnswer a
  | .getCmd => []
  | .run => []
  | .stop => []
  | .iter bs => bs.map showByte
  | .getRec t => [recName t]

/-- The words of an operation's stimulus line (R116). -/
def encodeWords (i : Instr) : List (List Char) := opName (opOf i) :: operandWords i

/-- The stimulus line of an operation (R116). -/
def encodeLine (i : Instr) : List Char := joinWords (encodeWords i)

/-- The stimulus line of an operation as bytes, one character a byte. -/
def encode (i : Instr) : Bytes := (encodeLine i).map (fun ch => BitVec.ofNat 8 ch.toNat)

end Sys2Proof
end

