-- ==== Sys2Proof/Machine/State.lean ====
section
/-! DEFINITION. The state of KCPE (R20), the outputs of a step (R7), the ways a step can stop, and reset (R45). -/

namespace Sys2Proof.Machine

/-- `fr_state` (R26). -/
inductive FrState where
  | scan | scanAA | len | body
  deriving DecidableEq, Repr, Inhabited

/-- The Framer's registers: `fr_state` and `fr_buf` (R26, R27). -/
structure Framer where
  state : FrState
  buf : Bytes
  deriving DecidableEq, Repr, Inhabited

/-- The sensor records `REC[T]` (R22, R23): `none` until the first decode of the type (R25). -/
structure Records where
  core : Option Bytes
  ir : Option Bytes
  dockIr : Option Bytes
  inertia : Option Bytes
  cliff : Option Bytes
  current : Option Bytes
  magnet : Option Bytes
  hw : Option Bytes
  fw : Option Bytes
  time : Option Bytes
  gyro : Option Bytes
  eeprom : Option Bytes
  gpin : Option Bytes
  deriving DecidableEq, Repr, Inhabited

/-- One wheel's odometry registers: `init_w`, `last_tick_w`, `last_rad_w`, `last_mm_w`, `last_velocity_w`
(R31 to R34, R37). -/
structure Wheel where
  init : Bool
  lastTick : Word16
  lastRad : Rat
  lastMm : Rat
  lastVelocity : Rat
  deriving DecidableEq, Repr, Inhabited

/-- The odometry registers (R31 to R38). -/
structure Odometry where
  left : Wheel
  right : Wheel
  lastTimestamp : Word16
  lastDiffTime : Rat
  poseDelta : Triple
  poseRate : Triple
  deriving DecidableEq, Repr, Inhabited

/-- The command pair `cmd_speed`, `cmd_radius`, written and read together (R39, R69). -/
structure CmdPair where
  speed : Word16
  radius : Word16
  deriving DecidableEq, Repr, Inhabited

/-- `en_state` (R40). -/
inductive EnState where
  | idle | running | stopped
  deriving DecidableEq, Repr, Inhabited

/-- The 15 notification pulses (R310). -/
inductive Pulse where
  | record (t : RecType)
  | odom
  | cmd
  deriving DecidableEq, Repr, Inhabited

/-- The three causes of a framing reject (R302). -/
inductive RejectCause where
  | badStart | lengthRange | checksum
  deriving DecidableEq, Repr, Inhabited

/-- The error kinds of the taxonomy (R300). -/
inductive ErrKind where
  | transient | framingReject | dispatchCorruption | serialization | configInvalid | cmdRange
  deriving DecidableEq, Repr, Inhabited

/-- An error raised while KCPE runs, with its recorded information (R301 to R306). -/
inductive Err where
  | transient
  | framingReject (cause : RejectCause)
  | dispatchCorruption
  | serialization (cmd : Cmd)
  | cmdRange (speed radius : Int)
  deriving DecidableEq, Repr, Inhabited

/-- What a read accessor answers (R212, R213, R254, R282). -/
inductive Answer where
  | wheel (position velocity : Rat)
  | pose (delta rate : Triple)
  | command (speed radius : Word16)
  | record (body : Bytes)
  | coreRecord (body : Bytes) (ts el er : Word16)
  | noValue
  deriving DecidableEq, Repr, Inhabited

/-- The output events (R7). -/
inductive Output where
  | tx (bytes : Bytes)
  | notify (p : Pulse)
  | err (e : Err)
  | answer (a : Answer)
  deriving DecidableEq, Repr, Inhabited

/-- What the last operation with a result returned: `FR.BYTE` and `FR.UPDATE` (R130 to R138),
`CE.VELFRAME` (R242). The model's own register, log 4. -/
inductive Result where
  | nothing
  | frame (body : Bytes)
  | frames (bodies : List Bytes)
  | encoded (bytes : Bytes)
  deriving DecidableEq, Repr, Inhabited

/-- Why a step stops. -/
inductive Fault where
  /-- Raised by `step` when `cfg` breaks a constraint of R344: no KCPE was constructed, so no event has a
  successor (R305, U19). Safe: nothing can be proved of a machine that does not exist. -/
  | configInvalid
  deriving DecidableEq, Repr

/-- Why an instruction is refused. -/
inductive Refusal where
  /-- Raised by an arm of `exec` that has no meaning yet; no arm does. Safe. -/
  | notModelled (mnemonic : String)
  deriving DecidableEq, Repr

/-- The state of KCPE (R20), its configuration registers (R43), and the model's own fields. -/
structure State where
  /-- `fr_state`, `fr_buf` -/
  fr : Framer
  /-- `dp_buf` -/
  dpBuf : Bytes
  /-- `upd`, ascending and without repeats -/
  upd : List Byte
  /-- `REC[T]` -/
  recs : Records
  /-- the odometry registers -/
  odo : Odometry
  /-- `cmd_speed`, `cmd_radius` -/
  cmd : CmdPair
  /-- `en_state` -/
  enState : EnState
  /-- `CFG` -/
  cfg : Config
  /-- the model's own: operations the host asks for, oldest first (log 3) -/
  queue : List Instr
  /-- the model's own: the output trace, oldest first (log 4) -/
  trace : List Output
  /-- the model's own: the result of the last operation that returns one (log 4) -/
  result : Result
  /-- the model's own: argument of the free value `Config.freeByte` (log 5) -/
  freeCount : Nat
  deriving DecidableEq, Repr

/-- The triple (0, 0, 0). -/
def tripleZero : Triple := ⟨0, 0, 0⟩

/-- A wheel's registers after reset (R45). `last_tick` is "unspecified, never read before written":
DESIGN CHOICE 0, log 1. -/
def Wheel.reset : Wheel := ⟨false, 0, 0, 0, 0⟩

/-- The odometry registers after reset (R45). -/
def Odometry.reset : Odometry := ⟨Wheel.reset, Wheel.reset, 0, 0, tripleZero, tripleZero⟩

/-- Every record unwritten (R25). -/
def Records.reset : Records :=
  ⟨none, none, none, none, none, none, none, none, none, none, none, none, none⟩

/-- The state a successful construction with `c` leaves (R45, R340). -/
def State.init (c : Config) : State where
  fr := ⟨.scan, []⟩
  dpBuf := []
  upd := []
  recs := Records.reset
  odo := Odometry.reset
  cmd := ⟨0, 0⟩
  enState := .idle
  cfg := c
  queue := []
  trace := []
  result := .nothing
  freeCount := 0

/-- The machine right after reset: construction (R340) with the device's own configuration (log 2). -/
def State.reset : State := State.init Config.device

end Sys2Proof.Machine
end

