-- ==== Sys2Proof/Machine/Ops.lean ====
section
/-! DEFINITION. The named operations over the state: register writes, output, records, and raising an error (R12, R24, R314). -/

namespace Sys2Proof.Machine

/-- Write the Framer's registers. -/
def State.setFr (s : State) (f : Framer) : State := { s with fr := f }
/-- Write `dp_buf`. -/
def State.setDpBuf (s : State) (b : Bytes) : State := { s with dpBuf := b }
/-- Write `upd`. -/
def State.setUpd (s : State) (u : List Byte) : State := { s with upd := u }
/-- Write the record store. -/
def State.setRecs (s : State) (r : Records) : State := { s with recs := r }
/-- Write the odometry registers. -/
def State.setOdo (s : State) (o : Odometry) : State := { s with odo := o }
/-- Write the command pair in one write (R69). -/
def State.setCmd (s : State) (c : CmdPair) : State := { s with cmd := c }
/-- Write `en_state`. -/
def State.setEn (s : State) (e : EnState) : State := { s with enState := e }
/-- Write the queue of requested operations. -/
def State.setQueue (s : State) (q : List Instr) : State := { s with queue := q }
/-- Write the result register. -/
def State.setResult (s : State) (r : Result) : State := { s with result := r }
/-- Write the counter of the free value. -/
def State.setFree (s : State) (n : Nat) : State := { s with freeCount := n }
/-- Write the configuration registers; no operation does (R43). -/
def State.setCfg (s : State) (c : Config) : State := { s with cfg := c }
/-- Append output events to the trace, in order (R7, R12 `emit`). -/
def State.emitAll (s : State) (os : List Output) : State := { s with trace := s.trace ++ os }
/-- Append one output event to the trace (R12 `emit`). -/
def State.emit (s : State) (o : Output) : State := s.emitAll [o]

/-- Read `REC[T]` (R12). -/
def recGet (r : Records) : RecType → Option Bytes
  | .core => r.core
  | .ir => r.ir
  | .dockIr => r.dockIr
  | .inertia => r.inertia
  | .cliff => r.cliff
  | .current => r.current
  | .magnet => r.magnet
  | .hw => r.hw
  | .fw => r.fw
  | .time => r.time
  | .gyro => r.gyro
  | .eeprom => r.eeprom
  | .gpin => r.gpin

/-- Replace `REC[T]` whole, in one write (R24). -/
def recSet (r : Records) (t : RecType) (b : Bytes) : Records :=
  match t with
  | .core => { r with core := some b }
  | .ir => { r with ir := some b }
  | .dockIr => { r with dockIr := some b }
  | .inertia => { r with inertia := some b }
  | .cliff => { r with cliff := some b }
  | .current => { r with current := some b }
  | .magnet => { r with magnet := some b }
  | .hw => { r with hw := some b }
  | .fw => { r with fw := some b }
  | .time => { r with time := some b }
  | .gyro => { r with gyro := some b }
  | .eeprom => { r with eeprom := some b }
  | .gpin => { r with gpin := some b }

/-- The kind of a raised error (R300). -/
def errKind : Err → ErrKind
  | .transient => .transient
  | .framingReject _ => .framingReject
  | .dispatchCorruption => .dispatchCorruption
  | .serialization _ => .serialization
  | .cmdRange _ _ => .cmdRange

/-- The code of an error kind (R300). -/
def errCode : ErrKind → Nat
  | .transient => 1
  | .framingReject => 2
  | .dispatchCorruption => 3
  | .serialization => 4
  | .configInvalid => 5
  | .cmdRange => 6

/-- Is an error kind reported (R300)? Kinds 2 and 3 are silent (R307). -/
def errReported : ErrKind → Bool
  | .framingReject => false
  | .dispatchCorruption => false
  | _ => true

/-- Does an error kind terminate the worker (R300)? Only an invalid configuration does. -/
def errTerminates : ErrKind → Bool
  | .configInvalid => true
  | _ => false

/-- The state an error kind writes (R314). -/
def errEffect (e : Err) (s : State) : State :=
  match e with
  | .transient => s
  | .framingReject _ => s.setFr ⟨.scan, []⟩
  | .dispatchCorruption => s.setDpBuf []
  | .serialization _ => s
  | .cmdRange _ _ => s

/-- `raise K(info)` (R12): report the error if its kind is reported, then write what R314 gives. This is
all KCPE does on an error: nothing is saved, no mode changes, control goes on (R314, R315). -/
def raise (e : Err) (s : State) : State :=
  errEffect e (if errReported (errKind e) then s.emit (.err e) else s)

/-- `refuse` (R12) for an accessor: no effect but the answer "no value". -/
def refuseAnswer (s : State) : State := s.emit (.answer .noValue)

/-- `refuse` (R12) for an event that is no accessor: no effect at all. -/
def refuseEvent (s : State) : State := s

end Sys2Proof.Machine
end

