-- ==== Sys2Proof/Machine/Flags.lean ====
section
/-! DEFINITION. The one-bit state of KCPE (R42): membership in `upd`, the wheels' init flags, whether a record is written. -/

namespace Sys2Proof.Machine

/-- Add a header id to an ascending set (R30, R163): an id already there is not repeated. -/
def setInsert (id : Byte) : List Byte → List Byte
  | [] => [id]
  | x :: xs =>
    if id.toNat < x.toNat then id :: x :: xs
    else if id = x then x :: xs
    else x :: setInsert id xs

/-- Is a header id in `upd` (R42)? -/
def setHas (id : Byte) (u : List Byte) : Bool := u.contains id

/-- Is `CFG.ID_CORE` in `upd` (R182 step 1)? `none` is in no set (R344). -/
def coreUpdated (c : Config) (u : List Byte) : Bool :=
  match c.idCore with
  | some id => setHas id u
  | none => false

/-- "Is `REC[T]` written" (R25, R42). -/
def recWritten (r : Records) (t : RecType) : Bool := (recGet r t).isSome

/-- Seed one wheel on its first sample and set its init flag (R31, R201). -/
def seedWheel (cur : Word16) (w : Wheel) : Wheel :=
  if w.init then w else { w with lastTick := cur, init := true }

end Sys2Proof.Machine
end

