-- ==== Sys2Proof/Machine/Operands.lean ====
section
/-! DEFINITION. The operand forms of KCPE: buffer reads and pops (R12), and the 16-bit views of a CORE body (R23, R102, R104). -/

namespace Sys2Proof.Machine

/-- `BufPop(buf, n)` (R12): the first `n` bytes and what is left. -/
def bufPop (buf : Bytes) (n : Nat) : Bytes × Bytes := (buf.take n, buf.drop n)

/-- `BufPush(buf, b)` (R12). -/
def bufPush (buf : Bytes) (b : Byte) : Bytes := buf ++ [b]

/-- Byte `k` of a record body. A byte past the end, which only a CORE body of variable width can be short
of (R344), is a free value (log 5). -/
def byteAt (free : Nat) (body : Bytes) (k : Nat) : Byte :=
  match body[k]? with
  | some b => b
  | none => Config.freeByte free body k

/-- The 16-bit view at offset `k` (R23, R104): low byte first. -/
def view16 (free : Nat) (body : Bytes) (k : Nat) : Word16 :=
  u16le (byteAt free body k) (byteAt free body (k + 1))

/-- The body of `REC[CORE]`; the empty body when nothing is written, in which case the spec reads no view
(R25, log 13). -/
def coreBody (r : Records) : Bytes := r.core.getD []

/-- `CORE.time_stamp` (R23). -/
def coreTimeStamp (s : State) : Word16 := view16 s.freeCount (coreBody s.recs) s.cfg.offTs
/-- `CORE.left_encoder` (R23). -/
def coreLeftEncoder (s : State) : Word16 := view16 s.freeCount (coreBody s.recs) s.cfg.offEncL
/-- `CORE.right_encoder` (R23). -/
def coreRightEncoder (s : State) : Word16 := view16 s.freeCount (coreBody s.recs) s.cfg.offEncR

end Sys2Proof.Machine
end

