-- ==== Sys2Proof/Machine/Construction.lean ====
section
/-! DEFINITION. Construction and its check (R340, R343, R344), and fetching the next operation. -/

namespace Sys2Proof.Machine

/-- `ID_CORE` names the CORE entry exactly (R5, R344). -/
def idCoreOk (c : Config) : Bool :=
  match c.idCore with
  | some id =>
    match regLookup c id with
    | some e => e.type == .core
    | none => false
  | none => c.reg.all (fun e => e.type != .core)

/-- An offset's two bytes lie inside a CORE body of fixed width (R344). -/
def offsetFits (c : Config) (off : Nat) : Bool :=
  c.reg.all (fun e =>
    e.type != .core ||
    match e.width with
    | .fixed n => decide (off + 2 ≤ n)
    | .byRest _ => true)

/-- Two 2-byte fields do not overlap (R5, R344). -/
def fieldsApart (a b : Nat) : Bool := decide (a + 2 ≤ b) || decide (b + 2 ≤ a)

/-- The construction check on a configuration whose parameters all have values (R344). That the ids of the
Registry are distinct is what makes it a map (R5, R100). -/
def configValid (c : Config) : Bool :=
  decide (c.lenMin ≤ c.lenMax) && decide (c.lenMax ≤ 255) &&
  decide (c.reg.map (·.id)).Nodup && decide (c.reg.map (·.type)).Nodup &&
  idCoreOk c &&
  offsetFits c c.offTs && offsetFits c c.offEncL && offsetFits c c.offEncR &&
  fieldsApart c.offTs c.offEncL && fieldsApart c.offTs c.offEncR &&
  fieldsApart c.offEncL c.offEncR &&
  decide (c.wheelbase ≠ 0)

/-- What the host gives to a construction (R343): each OPEN parameter of R5 with a value or without one.
`NUMERICS` and `ROUND` are decided. -/
structure Params where
  lenMin : Option Nat
  lenMax : Option Nat
  checkEn : Option Bool
  reg : Option (List RegEntry)
  idCore : Option (Option Byte)
  offTs : Option Nat
  offEncL : Option Nat
  offEncR : Option Nat
  wheelbase : Option Rat
  wheelRadius : Option Rat
  tickToRad : Option Rat
  tickToMm : Option Rat
  fk : Option Kinematics
  numerics : Numerics
  rounding : Rounding
  deriving DecidableEq, Repr

/-- The configuration of a full set of parameters; `none` when a required one has no value (R344). -/
def paramsConfig (p : Params) : Option Config := do
  let lenMin ← p.lenMin
  let lenMax ← p.lenMax
  let checkEn ← p.checkEn
  let reg ← p.reg
  let idCore ← p.idCore
  let offTs ← p.offTs
  let offEncL ← p.offEncL
  let offEncR ← p.offEncR
  let wheelbase ← p.wheelbase
  let wheelRadius ← p.wheelRadius
  let tickToRad ← p.tickToRad
  let tickToMm ← p.tickToMm
  let fk ← p.fk
  return { lenMin, lenMax, checkEn, reg, idCore, offTs, offEncL, offEncR, wheelbase, wheelRadius,
           tickToRad, tickToMm, fk, numerics := p.numerics, rounding := p.rounding }

/-- The parameters that give a configuration its values. -/
def configParams (c : Config) : Params where
  lenMin := some c.lenMin
  lenMax := some c.lenMax
  checkEn := some c.checkEn
  reg := some c.reg
  idCore := some c.idCore
  offTs := some c.offTs
  offEncL := some c.offEncL
  offEncR := some c.offEncR
  wheelbase := some c.wheelbase
  wheelRadius := some c.wheelRadius
  tickToRad := some c.tickToRad
  tickToMm := some c.tickToMm
  fk := some c.fk
  numerics := c.numerics
  rounding := c.rounding

/-- Construction (R340, R344): a KCPE in its reset state, or no KCPE at all (R305). -/
def construct (p : Params) : Host.Outcome State Fault Refusal :=
  match paramsConfig p with
  | none => .fault .configInvalid
  | some c => if configValid c then .next (State.init c) else .fault .configInvalid

/-- What the worker finds when it looks for its next operation. -/
inductive Fetched where
  /-- no KCPE was constructed (R305, U19) -/
  | invalid
  /-- the host has asked for nothing (R46, R342) -/
  | nothing
  /-- the oldest operation asked for, and the state without it -/
  | op (i : Instr) (s : State)

/-- Take the oldest operation asked for (R6, R72). -/
def fetch (s : State) : Fetched :=
  if configValid s.cfg then
    match s.queue with
    | [] => .nothing
    | i :: rest => .op i (s.setQueue rest)
  else .invalid

/-- Put an operation where the next step fetches. -/
def pushOperation (i : Instr) (s : State) : State := s.setQueue (i :: s.queue)

/-- A machine that can take a step on a table word: one constructed with `CFG0` (log 16), with the word's
operation next, and the zero bytes after a header id in `dp_buf`, where a sub-packet operation reads them. -/
def placeTableWord (s : State) (nbits w : Nat) : State :=
  match decodeTableWord nbits w with
  | none => s
  | some i =>
    let t := pushOperation i (s.setCfg Config.cfg0)
    if nbits = 8 then t.setDpBuf zeroBody else t

end Sys2Proof.Machine
end

