-- ==== Sys2Proof/Machine/Numerics.lean ====
section
/-! DEFINITION. The arithmetic of `Num` (R10), `round` (R11) and the kinematics function (R207, R214). -/

namespace Sys2Proof.Machine

/-- Sum of two `Num` (R10). -/
def numAdd (m : Numerics) (a b : Rat) : Rat :=
  match m with
  | .exact => a + b
  | .other n => Config.otherNum n .add a b

/-- Difference of two `Num` (R10). -/
def numSub (m : Numerics) (a b : Rat) : Rat :=
  match m with
  | .exact => a - b
  | .other n => Config.otherNum n .sub a b

/-- Product of two `Num` (R10). -/
def numMul (m : Numerics) (a b : Rat) : Rat :=
  match m with
  | .exact => a * b
  | .other n => Config.otherNum n .mul a b

/-- Quotient of two `Num` (R10). No rule divides by zero; a zero divisor gives a free value (log 11). -/
def numDiv (m : Numerics) (a b : Rat) : Rat :=
  match m with
  | .exact => if b = 0 then Config.divByZero a else a / b
  | .other n => Config.otherNum n .div a b

/-- The larger of two `Num` (R245). -/
def numMax (a b : Rat) : Rat := if a ≤ b then b else a

/-- Nearest integer, ties away from zero (R11). -/
def roundAway (q : Rat) : Int :=
  if 0 ≤ q then (q + 1 / 2).floor else -(-q + 1 / 2).floor

/-- Nearest integer, the choice at exact ties left free (U6, log 7). -/
def roundFree (n : Nat) (q : Rat) : Int :=
  let f := q.floor
  let d := q - f
  if d < 1 / 2 then f
  else if 1 / 2 < d then f + 1
  else if Config.tieUp n q then f + 1 else f

/-- `CFG.ROUND` (R5, R11). -/
def roundNum (r : Rounding) (q : Rat) : Int :=
  match r with
  | .tiesAway => roundAway q
  | .other n => roundFree n q

/-- `CFG.FK(al, ar)` (R207); the first-order formula is R214's. -/
def forwardKinematics (c : Config) (al ar : Rat) : Triple :=
  match c.fk with
  | .firstOrder =>
    { x := numDiv c.numerics (numMul c.numerics c.wheelRadius (numAdd c.numerics al ar)) 2
      y := 0
      theta := numDiv c.numerics (numMul c.numerics c.wheelRadius (numSub c.numerics ar al)) c.wheelbase }
  | .other n => Config.otherFk n c.wheelbase c.wheelRadius al ar

end Sys2Proof.Machine
end

