-- ==== Sys2Proof/Machine/Odometry.lean ====
section
/-! DEFINITION. The Odometry Integrator: `OD.UPDATE`, `GETWHEEL`, `GETPOSE` (`42_odometry.md`). -/

namespace Sys2Proof.Machine

/-- The tick delta of a seeded wheel (R202). -/
def tickDelta (cur : Word16) (w : Wheel) : Int := sdiff16 cur (seedWheel cur w).lastTick

/-- A wheel's angle for a tick delta (R200 step 3, R203). -/
def wheelAngle (c : Config) (d : Int) : Rat := numMul c.numerics d c.tickToRad

/-- The elapsed seconds (R205). -/
def elapsed (c : Config) (ts last : Word16) : Rat := numDiv c.numerics (sdiff16 ts last) 1000

/-- A wheel's velocity (R206): zero on a stale time stamp, else angle over time. -/
def wheelVelocity (c : Config) (ts last : Word16) (a : Rat) : Rat :=
  if ts = last then 0 else numDiv c.numerics a (elapsed c ts last)

/-- One wheel through steps 1 to 4 and 6 of the update (R201 to R204, R206). -/
def wheelUpdate (c : Config) (ts last cur : Word16) (w : Wheel) : Wheel :=
  let d := tickDelta cur w
  { seedWheel cur w with
    lastTick := cur
    lastRad := numAdd c.numerics w.lastRad (wheelAngle c d)
    lastMm := numAdd c.numerics w.lastMm (numMul c.numerics d c.tickToMm)
    lastVelocity := wheelVelocity c ts last (wheelAngle c d) }

/-- The pose rate (R208): this update's pose delta over this update's elapsed time, zero when that is zero,
which it is exactly when the time stamp is stale (R205), in every number system (D7). -/
def poseRateOf (c : Config) (ts last : Word16) (p : Triple) : Triple :=
  if ts = last then tripleZero
  else
    let dt := elapsed c ts last
    ⟨numDiv c.numerics p.x dt, numDiv c.numerics p.y dt, numDiv c.numerics p.theta dt⟩

/-- The odometry registers after `OD.UPDATE(ts, el, er)` (R200, R209). -/
def odoUpdate (c : Config) (ts el er : Word16) (o : Odometry) : Odometry :=
  let al := wheelAngle c (tickDelta el o.left)
  let ar := wheelAngle c (tickDelta er o.right)
  let dt := elapsed c ts o.lastTimestamp
  let p := forwardKinematics c al ar
  { left := wheelUpdate c ts o.lastTimestamp el o.left
    right := wheelUpdate c ts o.lastTimestamp er o.right
    lastTimestamp := if ts = o.lastTimestamp then o.lastTimestamp else ts
    lastDiffTime := if ts = o.lastTimestamp then o.lastDiffTime else dt
    poseDelta := p
    poseRate := poseRateOf c ts o.lastTimestamp p }

/-- `OD.UPDATE(ts, el, er)` on the state (R200): the odometry registers and nothing else. -/
def updateOdometry (ts el er : Word16) (s : State) : State :=
  s.setOdo (odoUpdate s.cfg ts el er s.odo)

/-- `OD.UPDATE(ts, el, er)` as an operation. -/
def execOdUpdate (ts el er : Word16) (s : State) : Host.Outcome State Fault Refusal :=
  .next (updateOdometry ts el er s)

/-- `GETWHEEL(name)` (R212). -/
def execGetWheel (name : WheelName) (s : State) : Host.Outcome State Fault Refusal :=
  match name with
  | .left => .next (s.emit (.answer (.wheel s.odo.left.lastRad s.odo.left.lastVelocity)))
  | .right => .next (s.emit (.answer (.wheel s.odo.right.lastRad s.odo.right.lastVelocity)))
  | .other _ => .next (refuseAnswer s)

/-- `GETPOSE` (R213). -/
def execGetPose (s : State) : Host.Outcome State Fault Refusal :=
  .next (s.emit (.answer (.pose s.odo.poseDelta s.odo.poseRate)))

end Sys2Proof.Machine
end

