-- ==== Sys2Proof/Machine/Dispatcher.lean ====
section
/-! DEFINITION. The Registry's operations and the Dispatcher: `DP.PASS`, the thirteen decodes, the two rejects, `DP.NOTIFY` (`41_dispatcher.md`). -/

namespace Sys2Proof.Machine

/-- The common decode form `DEC(T, id, w)` (R163): pop the body, replace the record, add the id to
`upd`. -/
def storeRecord (t : RecType) (id : Byte) (w : Nat) (s : State) : State :=
  let r := bufPop s.dpBuf w
  ((s.setDpBuf r.2).setRecs (recSet s.recs t r.1)).setUpd (setInsert id s.upd)

/-- Drop the rest of the frame (R180, R181): the effect of Dispatch corruption. -/
def dropRest (s : State) : State := raise .dispatchCorruption s

/-- A decode operation: `DEC(T, id, w)` when the body fits before the checksum byte, as R162 has checked
whenever it selects one; a body that does not fit is truncated (R181, log 12). -/
def decodeRecord (t : RecType) (id : Byte) (w : Nat) (s : State) : State :=
  if w + Config.csLen ≤ s.dpBuf.length then storeRecord t id w s else dropRest s

/-- `SP.CORE(id, w)` (R166). -/
def execSpCore (id : Byte) (w : Nat) (s : State) : Host.Outcome State Fault Refusal :=
  .next (decodeRecord .core id w s)
/-- `SP.IR(id, w)` (R167). -/
def execSpIr (id : Byte) (w : Nat) (s : State) : Host.Outcome State Fault Refusal :=
  .next (decodeRecord .ir id w s)
/-- `SP.DOCKIR(id, w)` (R168). -/
def execSpDockIr (id : Byte) (w : Nat) (s : State) : Host.Outcome State Fault Refusal :=
  .next (decodeRecord .dockIr id w s)
/-- `SP.INERTIA(id, w)` (R169). -/
def execSpInertia (id : Byte) (w : Nat) (s : State) : Host.Outcome State Fault Refusal :=
  .next (decodeRecord .inertia id w s)
/-- `SP.CLIFF(id, w)` (R170). -/
def execSpCliff (id : Byte) (w : Nat) (s : State) : Host.Outcome State Fault Refusal :=
  .next (decodeRecord .cliff id w s)
/-- `SP.CURRENT(id, w)` (R171). -/
def execSpCurrent (id : Byte) (w : Nat) (s : State) : Host.Outcome State Fault Refusal :=
  .next (decodeRecord .current id w s)
/-- `SP.MAGNET(id, w)` (R172). -/
def execSpMagnet (id : Byte) (w : Nat) (s : State) : Host.Outcome State Fault Refusal :=
  .next (decodeRecord .magnet id w s)
/-- `SP.HW(id, w)` (R173). -/
def execSpHw (id : Byte) (w : Nat) (s : State) : Host.Outcome State Fault Refusal :=
  .next (decodeRecord .hw id w s)
/-- `SP.FW(id, w)` (R174). -/
def execSpFw (id : Byte) (w : Nat) (s : State) : Host.Outcome State Fault Refusal :=
  .next (decodeRecord .fw id w s)
/-- `SP.TIME(id, w)` (R175). -/
def execSpTime (id : Byte) (w : Nat) (s : State) : Host.Outcome State Fault Refusal :=
  .next (decodeRecord .time id w s)
/-- `SP.GYRO(id, w)` (R176). -/
def execSpGyro (id : Byte) (w : Nat) (s : State) : Host.Outcome State Fault Refusal :=
  .next (decodeRecord .gyro id w s)
/-- `SP.EEPROM(id, w)` (R177). -/
def execSpEeprom (id : Byte) (w : Nat) (s : State) : Host.Outcome State Fault Refusal :=
  .next (decodeRecord .eeprom id w s)
/-- `SP.GPIN(id, w)` (R178). -/
def execSpGpin (id : Byte) (w : Nat) (s : State) : Host.Outcome State Fault Refusal :=
  .next (decodeRecord .gpin id w s)

/-- `SP.UNKNOWN(id)` (R180). -/
def execSpUnknown (_id : Byte) (s : State) : Host.Outcome State Fault Refusal := .next (dropRest s)

/-- `SP.TRUNC(id)` (R181). -/
def execSpTrunc (_id : Byte) (s : State) : Host.Outcome State Fault Refusal := .next (dropRest s)

/-- Perform what a header id selected (R162). -/
def performSub (o : SubOp) (s : State) : State :=
  match o with
  | .decode t id w => decodeRecord t id w s
  | .unknown _ => dropRest s
  | .trunc _ => dropRest s

/-- One sub-packet step (R162): pop the header id, then perform what it selects. -/
def subStep (s : State) : State :=
  match s.dpBuf with
  | [] => s
  | id :: rest => performSub (selectSub s.cfg id rest) (s.setDpBuf rest)

/-- The loop of a pass (R161), at most `fuel` sub-packet steps. Each step takes a byte at least (R184), so
the length of `dp_buf` is fuel enough. -/
def passLoop : Nat → State → State
  | 0, s => s
  | fuel + 1, s => if Config.csLen < s.dpBuf.length then passLoop fuel (subStep s) else s

/-- The pulses of one updated id (R182 step 2): `ODOM` directly after `CORE`. An id outside the Registry,
which no decode adds, has none (log 13). -/
def pulsesOf (c : Config) (id : Byte) : List Output :=
  match regLookup c id with
  | none => []
  | some e => .notify (.record e.type) :: (if c.idCore = some id then [.notify .odom] else [])

/-- `DP.NOTIFY` step 1 (R182): the odometry update, when CORE was decoded. The views are read before it;
the free counter advances with each such read (log 5). -/
def notifyOdometry (s : State) : State :=
  if coreUpdated s.cfg s.upd then
    (updateOdometry (coreTimeStamp s) (coreLeftEncoder s) (coreRightEncoder s) s).setFree
      (s.freeCount + 1)
  else s

/-- `DP.NOTIFY`, the end of pass (R182): odometry, then the pulses in ascending id order, then `upd` is
emptied. -/
def endOfPass (s : State) : State :=
  ((notifyOdometry s).emitAll (s.upd.flatMap (pulsesOf s.cfg))).setUpd []

/-- The start of a pass (R160): the length byte is removed. -/
def startPass (body : Bytes) (s : State) : State := (s.setDpBuf (body.drop 1)).setUpd []

/-- `DP.PASS(body)` (R160, R161): start, loop, drop the checksum byte, end of pass. -/
def runPass (body : Bytes) (s : State) : State :=
  endOfPass ((passLoop (body.drop 1).length (startPass body s)).setDpBuf [])

/-- `DP.PASS(body)` as an operation. -/
def execDpPass (body : Bytes) (s : State) : Host.Outcome State Fault Refusal := .next (runPass body s)

/-- `DP.NOTIFY` as an operation. -/
def execDpNotify (s : State) : Host.Outcome State Fault Refusal := .next (endOfPass s)

end Sys2Proof.Machine
end

