-- ==== Sys2Proof/Machine/Encoder.lean ====
section
/-! DEFINITION. The Command Encoder: `CE.VELFRAME`, `SETVEL`, `GENERIC`, `GETCMD` (`43_command_encoder.md`). -/

namespace Sys2Proof.Machine

/-- The payload of a velocity command (R110): command id, speed, radius. -/
def velPayload (speed radius : Word16) : Bytes := [Config.velId] ++ le16 speed ++ le16 radius

/-- `CE.VELFRAME(speed, radius)` (R242): nine bytes. -/
def velFrame (speed radius : Word16) : Bytes :=
  let p := velPayload speed radius
  [Config.stx0, Config.stx1, Config.velLen] ++ p ++ [xor8 (Config.velLen :: p)]

/-- The zero-velocity command's frame (R244). -/
def zeroFrame : Bytes := velFrame 0 0

/-- `radius_q` of R245. -/
def radiusOf (c : Config) (v w : Rat) : Int :=
  if w = 0 then 0
  else if v = 0 then (if 0 < w then 1 else -1)
  else roundNum c.rounding (numDiv c.numerics (numMul c.numerics v 1000) w)

/-- Half the difference of the wheel speeds, `WHEELBASE * w / 2` (R245). -/
def halfSpread (c : Config) (w : Rat) : Rat :=
  numDiv c.numerics (numMul c.numerics c.wheelbase w) 2

/-- `speed_q` of R245. -/
def speedOf (c : Config) (v w : Rat) : Int :=
  roundNum c.rounding
    (numMul c.numerics 1000
      (numMax (numAdd c.numerics v (halfSpread c w)) (numSub c.numerics v (halfSpread c w))))

/-- Write the command pair and pulse (R246, R250, R255). -/
def storeCommand (p : CmdPair) (s : State) : State := (s.setCmd p).emit (.notify .cmd)

/-- `CE.VELFRAME(speed, radius)` as an operation: a pure function whose result is the frame. -/
def execCeVelframe (speed radius : Word16) (s : State) : Host.Outcome State Fault Refusal :=
  .next (s.setResult (.encoded (velFrame speed radius)))

/-- `SETVEL` (R246). -/
def execSetVel (v w : Rat) (s : State) : Host.Outcome State Fault Refusal :=
  let sp := speedOf s.cfg v w
  let ra := radiusOf s.cfg v w
  if fitsI16 sp && fitsI16 ra then .next (storeCommand ⟨toI16 sp, toI16 ra⟩ s)
  else .next (raise (.cmdRange sp ra) s)

/-- The mirror of a generic command that was sent (R250). -/
def mirrorCommand (cmd : Cmd) (s : State) : State :=
  match cmd with
  | .baseControl speed radius => storeCommand ⟨speed, radius⟩ s
  | .other _ => s

/-- `GENERIC` (R249, R251, R252): serializer failure first, then the length limit (R312). -/
def execGeneric (cmd : Cmd) (answer : Option Bytes) (s : State) : Host.Outcome State Fault Refusal :=
  match answer with
  | none => .next (raise (.serialization cmd) s)
  | some p =>
    if 255 < p.length then .next (raise (.serialization cmd) s)
    else .next (mirrorCommand cmd (s.emit (.tx (frameOf p))))

/-- `GETCMD` (R254). -/
def execGetCmd (s : State) : Host.Outcome State Fault Refusal :=
  .next (s.emit (.answer (.command s.cmd.speed s.cmd.radius)))

end Sys2Proof.Machine
end

