-- ==== Sys2Proof/Machine/Framer.lean ====
section
/-! DEFINITION. The Framer: `FR.BYTE` and `FR.UPDATE` (`40_framer.md`). -/

namespace Sys2Proof.Machine

/-- The length a candidate has when it is complete: `fr_buf[0] + 2` (R133, R134). Outside R28 there is no
first byte and 0 is read (log 13). -/
def candidateLen (buf : Bytes) : Nat :=
  match buf with
  | [] => 2
  | l :: _ => l.toNat + 2

/-- The acceptance predicate (R136). -/
def accepts (c : Config) (body : Bytes) : Bool := !c.checkEn || xor8 body == 0

/-- The length check (R132). -/
def lengthInRange (c : Config) (b : Byte) : Bool :=
  decide (c.lenMin ≤ b.toNat) && decide (b.toNat ≤ c.lenMax)

/-- `FR.BYTE(b)` in `SCAN` (R130). -/
def byteScan (b : Byte) (s : State) : State :=
  s.setFr ⟨if b = Config.stx0 then .scanAA else .scan, s.fr.buf⟩

/-- `FR.BYTE(b)` in `SCAN_AA` (R131). -/
def byteScanAA (b : Byte) (s : State) : State :=
  if b = Config.stx1 then s.setFr ⟨.len, s.fr.buf⟩
  else if b = Config.stx0 then s.setFr ⟨.scanAA, s.fr.buf⟩
  else raise (.framingReject .badStart) s

/-- `FR.BYTE(b)` in `LEN` (R132). -/
def byteLen (b : Byte) (s : State) : State :=
  if lengthInRange s.cfg b then s.setFr ⟨.body, [b]⟩
  else raise (.framingReject .lengthRange) s

/-- `FR.BYTE(b)` in `BODY` (R133, R134, R135), with the framed body it yields, if it does. -/
def byteBody (b : Byte) (s : State) : State × Option Bytes :=
  let body := bufPush s.fr.buf b
  if body.length < candidateLen s.fr.buf then (s.setFr ⟨.body, body⟩, none)
  else if accepts s.cfg body then (s.setFr ⟨.scan, []⟩, some body)
  else (raise (.framingReject .checksum) s, none)

/-- `FR.BYTE(b)` (R130 to R135): the state after the byte and the framed body it yields, if it does. -/
def frameByte (b : Byte) (s : State) : State × Option Bytes :=
  match s.fr.state with
  | .scan => (byteScan b s, none)
  | .scanAA => (byteScanAA b s, none)
  | .len => (byteLen b s, none)
  | .body => byteBody b s

/-- `FR.UPDATE(bytes)` (R138): every byte in order, and the framed bodies in stream order. -/
def frameBytes : Bytes → State → State × List Bytes
  | [], s => (s, [])
  | b :: bs, s =>
    let r := frameByte b s
    let t := frameBytes bs r.1
    (t.1, r.2.toList ++ t.2)

/-- The result `nothing` or `frame(body)` of a byte step. -/
def byteResult : Option Bytes → Result
  | none => .nothing
  | some body => .frame body

/-- `FR.BYTE(b)` as an operation. -/
def execFrByte (b : Byte) (s : State) : Host.Outcome State Fault Refusal :=
  let r := frameByte b s
  .next (r.1.setResult (byteResult r.2))

/-- `FR.UPDATE(bytes)` as an operation. -/
def execFrUpdate (bytes : Bytes) (s : State) : Host.Outcome State Fault Refusal :=
  let r := frameBytes bytes s
  .next (r.1.setResult (.frames r.2))

end Sys2Proof.Machine
end

