-- ==== Sys2Proof/Machine/Engine.lean ====
section
/-! DEFINITION. The Engine Loop: `RUN`, `STOP`, `ITER`, `GETREC` (`44_engine_loop.md`). -/

namespace Sys2Proof.Machine

/-- `RUN` (R271). -/
def execRun (s : State) : Host.Outcome State Fault Refusal := .next (s.setEn .running)

/-- The state `Stop` leaves (R273): only `Running` becomes `Stopped`. -/
def stoppedFrom : EnState → EnState
  | .running => .stopped
  | e => e

/-- `STOP` (R273). -/
def execStop (s : State) : Host.Outcome State Fault Refusal :=
  .next (((storeCommand ⟨0, 0⟩ s).emit (.tx zeroFrame)).setEn (stoppedFrom s.enState))

/-- Step 1 of an iteration (R275, R276): a zero-byte read is reported. -/
def reportEmptyRead (bytes : Bytes) (s : State) : State :=
  match bytes with
  | [] => raise .transient s
  | _ :: _ => s

/-- One received byte of an iteration (R277): the byte step, then the pass over the body it yields. -/
def feedByte (b : Byte) (s : State) : State :=
  let r := frameByte b s
  match r.2 with
  | none => r.1
  | some body => runPass body r.1

/-- Step 2 of an iteration (R275, R277): every byte in order. -/
def feedBytes : Bytes → State → State
  | [], s => s
  | b :: bs, s => feedBytes bs (feedByte b s)

/-- The frame the send step transmits (R279): the stored command while running, else zero motion. -/
def outboundFrame (s : State) : Bytes :=
  match s.enState with
  | .running => velFrame s.cmd.speed s.cmd.radius
  | _ => zeroFrame

/-- The send step (R279). -/
def sendCommand (s : State) : State := s.emit (.tx (outboundFrame s))

/-- One iteration that is not refused (R275). -/
def runIteration (bytes : Bytes) (s : State) : State :=
  sendCommand (feedBytes bytes (reportEmptyRead bytes s))

/-- `ITER` (R274, R275): refused in `Idle`. -/
def execIter (bytes : Bytes) (s : State) : Host.Outcome State Fault Refusal :=
  match s.enState with
  | .idle => .next (refuseEvent s)
  | .running => .next (runIteration bytes s)
  | .stopped => .next (runIteration bytes s)

/-- What `GETREC(T)` answers (R282): the record, with the three views for CORE, or "no value" (R25). -/
def recordAnswer (t : RecType) (s : State) : Answer :=
  match recGet s.recs t with
  | none => .noValue
  | some body =>
    match t with
    | .core => .coreRecord body (coreTimeStamp s) (coreLeftEncoder s) (coreRightEncoder s)
    | _ => .record body

/-- `GETREC(T)` (R282). -/
def execGetRec (t : RecType) (s : State) : Host.Outcome State Fault Refusal :=
  .next (s.emit (.answer (recordAnswer t s)))

end Sys2Proof.Machine
end

