-- ==== Sys2Proof/Machine/Dispatch.lean ====
section
/-! DEFINITION. `exec`: one direct call of a meaning per operation of R117. -/

namespace Sys2Proof.Machine

def exec (i : Instr) (s : State) : Host.Outcome State Fault Refusal :=
  match i with
  | .frByte b => Sys2Proof.Machine.execFrByte b s
  | .frUpdate bytes => Sys2Proof.Machine.execFrUpdate bytes s
  | .dpPass body => Sys2Proof.Machine.execDpPass body s
  | .spCore id w => Sys2Proof.Machine.execSpCore id w s
  | .spIr id w => Sys2Proof.Machine.execSpIr id w s
  | .spDockIr id w => Sys2Proof.Machine.execSpDockIr id w s
  | .spInertia id w => Sys2Proof.Machine.execSpInertia id w s
  | .spCliff id w => Sys2Proof.Machine.execSpCliff id w s
  | .spCurrent id w => Sys2Proof.Machine.execSpCurrent id w s
  | .spMagnet id w => Sys2Proof.Machine.execSpMagnet id w s
  | .spHw id w => Sys2Proof.Machine.execSpHw id w s
  | .spFw id w => Sys2Proof.Machine.execSpFw id w s
  | .spTime id w => Sys2Proof.Machine.execSpTime id w s
  | .spGyro id w => Sys2Proof.Machine.execSpGyro id w s
  | .spEeprom id w => Sys2Proof.Machine.execSpEeprom id w s
  | .spGpin id w => Sys2Proof.Machine.execSpGpin id w s
  | .spUnknown id => Sys2Proof.Machine.execSpUnknown id s
  | .spTrunc id => Sys2Proof.Machine.execSpTrunc id s
  | .dpNotify => Sys2Proof.Machine.execDpNotify s
  | .odUpdate ts el er => Sys2Proof.Machine.execOdUpdate ts el er s
  | .getWheel name => Sys2Proof.Machine.execGetWheel name s
  | .getPose => Sys2Proof.Machine.execGetPose s
  | .ceVelframe speed radius => Sys2Proof.Machine.execCeVelframe speed radius s
  | .setVel v w => Sys2Proof.Machine.execSetVel v w s
  | .generic cmd answer => Sys2Proof.Machine.execGeneric cmd answer s
  | .getCmd => Sys2Proof.Machine.execGetCmd s
  | .run => Sys2Proof.Machine.execRun s
  | .stop => Sys2Proof.Machine.execStop s
  | .iter bytes => Sys2Proof.Machine.execIter bytes s
  | .getRec t => Sys2Proof.Machine.execGetRec t s

end Sys2Proof.Machine
end

