-- ==== Sys2Proof/Machine/Step.lean ====
section
/-! DEFINITION. One step: the oldest operation the host asked for, whole (R6), and the placing of a table word. -/

namespace Sys2Proof.Machine

/-- One step (R6, R46): the oldest operation asked for is performed whole; with none asked for nothing
happens; a machine whose configuration is invalid takes no step (R305). -/
def step (s : State) : Host.Outcome State Fault Refusal :=
  match fetch s with
  | .invalid => .fault .configInvalid
  | .nothing => .next s
  | .op i t => exec i t

/-- `s` with a table word's operation placed where `step` fetches next. -/
def State.withFetchWord (s : State) (nbits w : Nat) : State := placeTableWord s nbits w

end Sys2Proof.Machine
end

