-- ==== Sys2Proof/Safety.lean ====
section
/-! DEFINITION. What claims speak of: the invariant between events, whole frames, and the spec's arithmetic in its own words. -/

namespace Sys2Proof

open Machine

/-- `as_i16(u)` of R8, on the integers. -/
def Spec.asI16 (u : Int) : Int := if u < 32768 then u else u - 65536

/-- `sdiff16(a, b)` of R8, on the integers: `as_i16((a - b) mod 65536)`. -/
def Spec.sdiff16 (a b : Word16) : Int := Spec.asI16 (((a.toNat : Int) - (b.toNat : Int)) % 65536)

/-- `CORE.<field>` of R23 at an offset, when its two bytes lie inside the body: `u16le(body[k], body[k+1])`. -/
def Spec.fieldAt (body : Bytes) (k : Nat) (v : Word16) : Prop :=
  ∃ lo hi, body[k]? = some lo ∧ body[k + 1]? = some hi ∧ v.toNat = lo.toNat + 256 * hi.toNat

/-- Perform operations one after another, as `exec` does each. -/
def Spec.performAll : List Instr → State → Host.Outcome State Fault Refusal
  | [], s => .next s
  | i :: is, s =>
    match exec i s with
    | .next t => Spec.performAll is t
    | .fault r => .fault r
    | .refused r => .refused r

/-- The sub-packet decodes of R101 with the record type of each. -/
def Spec.decodes (id : Byte) (w : Nat) : List (Instr × RecType) :=
  [(.spCore id w, .core), (.spIr id w, .ir), (.spDockIr id w, .dockIr), (.spInertia id w, .inertia),
    (.spCliff id w, .cliff), (.spCurrent id w, .current), (.spMagnet id w, .magnet), (.spHw id w, .hw),
    (.spFw id w, .fw), (.spTime id w, .time), (.spGyro id w, .gyro), (.spEeprom id w, .eeprom),
    (.spGpin id w, .gpin)]

/-- Sub-packets one after another with nothing between them (R94). -/
def Spec.payloadOf : List (RegEntry × Bytes) → Bytes
  | [] => []
  | p :: ps => p.1.id :: (p.2 ++ Spec.payloadOf ps)

/-- Sub-packets the Registry can decode, one after another, with `tail` between them and the checksum byte:
each id selects its entry, and the entry's width, fixed or read from the bytes that follow the id up to the
checksum byte, is the length of the body (R95, R100, R165). -/
def Spec.payloadOk (c : Config) : List (RegEntry × Bytes) → Bytes → Prop
  | [], _ => True
  | p :: ps, tail =>
    regLookup c p.1.id = some p.1 ∧
      widthOf p.1.width (p.2 ++ (Spec.payloadOf ps ++ tail)) = some p.2.length ∧
      Spec.payloadOk c ps tail

/-- The record store after sub-packets are decoded in order (R163, R164). -/
def Spec.recsAfter : List (RegEntry × Bytes) → Records → Records
  | [], r => r
  | p :: ps, r => Spec.recsAfter ps (recSet r p.1.type p.2)

/-- `upd` after sub-packets are decoded in order (R163, R164). -/
def Spec.updAfter : List (RegEntry × Bytes) → List Byte → List Byte
  | [], u => u
  | p :: ps, u => Spec.updAfter ps (setInsert p.1.id u)

/-- The framed body of a payload (R92). -/
def Spec.framedBody (p : Bytes) : Bytes :=
  [BitVec.ofNat 8 p.length] ++ p ++ [xor8 (BitVec.ofNat 8 p.length :: p)]

/-- A frame on the wire (R90, R240): the start bytes and a framed body. -/
def Spec.wireFrame (p : Bytes) : Bytes := [0xAA, 0x55] ++ Spec.framedBody p

/-- A payload a Framer with configuration `c` accepts the length of (R132). -/
def Spec.lengthOk (c : Config) (p : Bytes) : Prop :=
  c.lenMin ≤ p.length ∧ p.length ≤ c.lenMax ∧ p.length ≤ 255

/-- One whole frame, start sequence to checksum byte (R62, R90, R91). -/
def frameComplete (f : Bytes) : Bool :=
  match f with
  | b0 :: b1 :: n :: rest =>
    b0 == 0xAA && b1 == 0x55 && rest.length == n.toNat + 1 && xor8 (n :: rest) == 0
  | _ => false

/-- Every transmission is one whole frame (R62). -/
def outputOk : Output → Bool
  | .tx f => frameComplete f
  | _ => true

/-- The Framer invariant (R28). -/
def framerOk (c : Config) (f : Framer) : Bool :=
  match f.state, f.buf with
  | .body, [] => false
  | .body, l :: rest => decide (rest.length ≤ l.toNat) && lengthInRange c l
  | _, buf => buf.isEmpty

/-- Ascending without repeats: the one form a set of header ids has (R30). -/
abbrev ascending (u : List Byte) : Prop := u.Pairwise (fun a b => a.toNat < b.toNat)

/-- A record decoded with a fixed width has that width (R23, R100). -/
def recordsOk (c : Config) (r : Records) : Bool :=
  c.reg.all (fun e =>
    match e.width, recGet r e.type with
    | .fixed n, some b => b.length == n
    | _, _ => true)

/-- The odometry registers hold their reset values, `last_tick` aside, whose reset value R45 leaves
unspecified. -/
def odometryUntouched (o : Odometry) : Bool :=
  { o with
    left := { o.left with lastTick := 0 }, right := { o.right with lastTick := 0 } } == Odometry.reset

/-- Between events, both wheels are seeded exactly when CORE has been decoded, and before that the odometry
registers but `last_tick` hold their reset values (R201, R345). -/
def odometryOk (s : State) : Bool :=
  s.odo.left.init == s.odo.right.init && s.odo.left.init == s.recs.core.isSome &&
    (s.odo.left.init || odometryUntouched s.odo)

/-- The invariant of KCPE between events. -/
structure Inv (s : State) : Prop where
  /-- R28 -/
  framer : framerOk s.cfg s.fr = true
  /-- R29: between passes `dp_buf` is empty -/
  buffer : s.dpBuf = []
  /-- R30: between passes `upd` is empty -/
  updated : s.upd = []
  /-- R23, R24 -/
  records : recordsOk s.cfg s.recs = true
  /-- R201, R345 -/
  odometry : odometryOk s = true
  /-- R62 -/
  outputs : s.trace.all outputOk = true
  /-- R285: the host asks for input events only; the queue is the model's, log 3 -/
  requests : s.queue.all Instr.isEvent = true

end Sys2Proof
end

