-- ==== Sys2Proof/Certificates/Slice0/Obligations.lean ====
section
/-! DEFINITION. The statements for the provers. Each docstring names the rule it formalises. -/

open Sys2Proof Sys2Proof.Machine

/-! ### The Framer -/

/-- R130: in SCAN, AA is held and any other byte is dropped; nothing else changes. -/
def Obligations.ScanByteHuntsForStart : Prop :=
  ∀ (b : Byte) (s : State), s.fr.state = .scan →
    exec (.frByte b) s =
      .next { s with
        fr := ⟨if b = 0xAA then .scanAA else .scan, s.fr.buf⟩
        result := .nothing }

/-- R131 (the second AA: the spec's decision D23), R302: in SCAN_AA, 55 opens a frame, AA is held anew, any
other byte is a bad start match. -/
def Obligations.ScanAAByteMatchesStart : Prop :=
  ∀ (b : Byte) (s : State), s.fr = ⟨.scanAA, []⟩ →
    exec (.frByte b) s =
      .next { s with
        fr := ⟨if b = 0x55 then .len else if b = 0xAA then .scanAA else .scan, []⟩
        result := .nothing }

/-- R132 (a rejected length byte is consumed: the spec's decision D24): a length byte in range opens a
candidate, any other, AA among them, returns the Framer to SCAN. -/
def Obligations.LengthByteIsJudged : Prop :=
  ∀ (b : Byte) (s : State), s.fr.state = .len →
    (s.cfg.lenMin ≤ b.toNat ∧ b.toNat ≤ s.cfg.lenMax →
      exec (.frByte b) s = .next { s with fr := ⟨.body, [b]⟩, result := .nothing }) ∧
    (b.toNat < s.cfg.lenMin ∨ s.cfg.lenMax < b.toNat →
      exec (.frByte b) s = .next { s with fr := ⟨.scan, []⟩, result := .nothing })

/-- R133, R134, R135: a byte of a candidate is stored until it is complete; the last byte yields the framed
body when it is accepted, and drops the candidate when it is not. -/
def Obligations.BodyByteStoresThenSettles : Prop :=
  ∀ (b l : Byte) (got : Bytes) (s : State), s.fr = ⟨.body, l :: got⟩ →
    (got.length < l.toNat →
      exec (.frByte b) s =
        .next { s with fr := ⟨.body, l :: (got ++ [b])⟩, result := .nothing }) ∧
    (got.length = l.toNat → s.cfg.checkEn = false ∨ xor8 (l :: (got ++ [b])) = 0 →
      exec (.frByte b) s =
        .next { s with fr := ⟨.scan, []⟩, result := .frame (l :: (got ++ [b])) }) ∧
    (got.length = l.toNat → s.cfg.checkEn = true → xor8 (l :: (got ++ [b])) ≠ 0 →
      exec (.frByte b) s = .next { s with fr := ⟨.scan, []⟩, result := .nothing })

/-- R140 (the spec derives it from R138), R61: cutting the stream anywhere changes neither the bodies nor the
Framer. -/
def Obligations.ChunkingDoesNotMatter : Prop :=
  ∀ (xs ys : Bytes) (s : State), ∃ (s1 s2 : State) (o1 o2 : List Bytes),
    exec (.frUpdate xs) s = .next s1 ∧ s1.result = .frames o1 ∧
    exec (.frUpdate ys) s1 = .next s2 ∧ s2.result = .frames o2 ∧
    exec (.frUpdate (xs ++ ys)) s = .next { s2 with result := .frames (o1 ++ o2) }

/-- R28, R139 (the spec derives both): a chunk writes the Framer's registers alone, keeps the Framer
invariant, and every body it yields has the declared length, a length in range and, when checked, checksum
zero. -/
def Obligations.ChunkYieldsWholeBodies : Prop :=
  ∀ (bytes : Bytes) (s : State), framerOk s.cfg s.fr = true →
    ∃ (t : State) (bodies : List Bytes), exec (.frUpdate bytes) s = .next t ∧
      t = { s with fr := t.fr, result := .frames bodies } ∧ framerOk s.cfg t.fr = true ∧
      ∀ body ∈ bodies, ∃ l rest, body = l :: rest ∧ rest.length = l.toNat + 1 ∧
        s.cfg.lenMin ≤ l.toNat ∧ l.toNat ≤ s.cfg.lenMax ∧ (s.cfg.checkEn = true → xor8 body = 0)

/-- R142 (the spec derives it from R130 to R134): one well-formed frame, arriving in SCAN or SCAN_AA, yields
exactly its framed body. -/
def Obligations.SingleFrameIsFound : Prop :=
  ∀ (p : Bytes) (s : State), s.fr.state = .scan ∨ s.fr.state = .scanAA → Spec.lengthOk s.cfg p →
    exec (.frUpdate (Spec.wireFrame p)) s =
      .next { s with fr := ⟨.scan, []⟩, result := .frames [Spec.framedBody p] }

/-- R143 (the spec derives it from R135 and R136): with the checksum checked, a frame with one payload byte
changed yields nothing, and the genuine frame after it is found. -/
def Obligations.CorruptedByteDropsFrameAndResyncs : Prop :=
  ∀ (p q r : Bytes) (x y : Byte) (s : State), x ≠ y → s.cfg.checkEn = true →
    s.fr.state = .scan ∨ s.fr.state = .scanAA →
    Spec.lengthOk s.cfg (p ++ x :: q) → Spec.lengthOk s.cfg r →
    exec (.frUpdate
        ([0xAA, 0x55, BitVec.ofNat 8 (p ++ x :: q).length] ++ (p ++ y :: q) ++
          [xor8 (BitVec.ofNat 8 (p ++ x :: q).length :: (p ++ x :: q))] ++ Spec.wireFrame r)) s =
      .next { s with fr := ⟨.scan, []⟩, result := .frames [Spec.framedBody r] }

/-- R144 (the spec derives it from R134 and R138): frames back to back, any number of them, are all yielded,
in order. -/
def Obligations.BackToBackFramesAllYield : Prop :=
  ∀ (ps : List Bytes) (s : State), s.fr = ⟨.scan, []⟩ → (∀ p ∈ ps, Spec.lengthOk s.cfg p) →
    exec (.frUpdate (ps.flatMap Spec.wireFrame)) s =
      .next { s with result := .frames (ps.map Spec.framedBody) }

/-! ### The Registry and the Dispatcher -/

/-- R101: the header id selects the operation: unknown when it is not in the Registry, truncated when the
width fails or does not fit before the checksum byte, else the decode of its record type. -/
def Obligations.HeaderIdSelectsOperation : Prop :=
  ∀ (c : Config) (id : Byte) (rest : Bytes),
    (regLookup c id = none → decodeHeader c (id :: rest) = some (.spUnknown id)) ∧
    ∀ e, regLookup c id = some e →
      (widthOf e.width (rest.take (rest.length - 1)) = none →
        decodeHeader c (id :: rest) = some (.spTrunc id)) ∧
      ∀ w, widthOf e.width (rest.take (rest.length - 1)) = some w →
        (rest.length - 1 < w → decodeHeader c (id :: rest) = some (.spTrunc id)) ∧
        (w ≤ rest.length - 1 →
          ∃ i, decodeHeader c (id :: rest) = some i ∧ (i, e.type) ∈ Spec.decodes id w)

/-- R162: a sub-packet step pops the header id and performs the operation it decodes to. -/
def Obligations.SubpacketStepRunsDecodedOperation : Prop :=
  ∀ (s : State) (id : Byte) (rest : Bytes), s.dpBuf = id :: rest →
    ∃ i, decodeHeader s.cfg s.dpBuf = some i ∧ exec i { s with dpBuf := rest } = .next (subStep s)

/-- R163: each of the thirteen decodes pops exactly its body, replaces its record whole, adds the id to the
set, and touches nothing else. -/
def Obligations.DecodeReplacesRecordWhole : Prop :=
  ∀ (id : Byte) (w : Nat) (s : State) (i : Instr) (t : RecType),
    (i, t) ∈ Spec.decodes id w → w + 1 ≤ s.dpBuf.length →
    ∃ s' : State, exec i s = .next s' ∧
      recGet s'.recs t = some (s.dpBuf.take w) ∧
      (∀ u, u ≠ t → recGet s'.recs u = recGet s.recs u) ∧
      s'.dpBuf = s.dpBuf.drop w ∧
      (∀ x, x ∈ s'.upd ↔ x = id ∨ x ∈ s.upd) ∧ (ascending s.upd → ascending s'.upd) ∧
      s' = { s with dpBuf := s'.dpBuf, recs := s'.recs, upd := s'.upd }

/-- The model's choice, log 12: a decode performed although its body does not fit before the checksum byte
(R162 never selects one) drops the rest of the frame. -/
def Obligations.DecodeThatDoesNotFitDropsRest : Prop :=
  ∀ (id : Byte) (w : Nat) (s : State) (i : Instr) (t : RecType),
    (i, t) ∈ Spec.decodes id w → s.dpBuf.length < w + 1 →
    exec i s = .next { s with dpBuf := [] }

/-- R180: an unknown id drops the rest of the frame; records and set stay as they are. -/
def Obligations.UnknownIdDropsRest : Prop :=
  ∀ (id : Byte) (s : State), exec (.spUnknown id) s = .next { s with dpBuf := [] }

/-- R181 (the spec's decision D26): a truncated sub-packet drops the rest of the frame. -/
def Obligations.TruncatedSubpacketDropsRest : Prop :=
  ∀ (id : Byte) (s : State), exec (.spTrunc id) s = .next { s with dpBuf := [] }

/-- R160, R161: a pass removes the length byte, empties the set, takes sub-packet steps for as long as more
than the checksum byte is left, drops what is left, and performs the end of pass. -/
def Obligations.PassLoopsThenNotifies : Prop :=
  ∀ (l : Byte) (rest : Bytes) (s : State), ∃ (k : Nat) (t : State),
    (∀ j, j < k → 1 < (subStep^[j] { s with dpBuf := rest, upd := [] }).dpBuf.length) ∧
    (subStep^[k] { s with dpBuf := rest, upd := [] }).dpBuf.length ≤ 1 ∧
    exec .dpNotify { subStep^[k] { s with dpBuf := rest, upd := [] } with dpBuf := [] } = .next t ∧
    exec (.dpPass (l :: rest)) s = .next t

/-- R94, R163, R165, R164 (the spec derives R164; widths are its decision D2): a payload of sub-packets the
Registry can decode, of fixed or variable width, is decoded whole, in order, and the pass ends with every one
of their ids in the set. -/
def Obligations.PassDecodesEverySubpacket : Prop :=
  ∀ (ps : List (RegEntry × Bytes)) (l cs : Byte) (s : State),
    Spec.payloadOk s.cfg ps [] →
    ∃ t : State,
      exec .dpNotify
        { s with dpBuf := [], upd := Spec.updAfter ps [], recs := Spec.recsAfter ps s.recs } =
          .next t ∧
      exec (.dpPass (l :: (Spec.payloadOf ps ++ [cs]))) s = .next t

/-- R180, R183 (the spec derives R183): sub-packets of fixed or variable width before an unknown id are kept
and notified, what follows it in the frame is lost. -/
def Obligations.UnknownIdSacrificesWhatFollows : Prop :=
  ∀ (ps : List (RegEntry × Bytes)) (l id cs : Byte) (junk : Bytes) (s : State),
    Spec.payloadOk s.cfg ps (id :: junk) → regLookup s.cfg id = none →
    ∃ t : State,
      exec .dpNotify
        { s with dpBuf := [], upd := Spec.updAfter ps [], recs := Spec.recsAfter ps s.recs } =
          .next t ∧
      exec (.dpPass (l :: (Spec.payloadOf ps ++ id :: (junk ++ [cs])))) s = .next t

/-- R184 (the spec derives it from R161 and R162): a pass completes on every body and touches neither the
Framer, the command pair, the engine state nor the configuration; it leaves buffer and set empty. -/
def Obligations.PassTouchesOnlyDispatcherAndOdometry : Prop :=
  ∀ (body : Bytes) (s : State), ∃ t : State, exec (.dpPass body) s = .next t ∧
    t = { s with
      dpBuf := [], upd := [], recs := t.recs, odo := t.odo, trace := t.trace
      freeCount := t.freeCount }

/-- R182 (its order is the spec's decision D27): the end of pass completes in every state and empties the set;
it runs the odometry update on the views of CORE if CORE is in the set; with a valid configuration and a set
of Registry ids, as every pass leaves it, it emits the pulses in the set's order with ODOM directly after
CORE. A view that lies past the end of the body is a free value (log 5). -/
def Obligations.EndOfPassIntegratesThenNotifies : Prop :=
  ∀ s : State, ∃ t : State, exec .dpNotify s = .next t ∧
    t = { s with upd := [], odo := t.odo, trace := t.trace, freeCount := t.freeCount } ∧
    (configValid s.cfg = true → (∀ id ∈ s.upd, (regLookup s.cfg id).isSome = true) →
      t.trace = s.trace ++ s.upd.flatMap (fun id =>
        match regLookup s.cfg id with
        | some e =>
          .notify (.record e.type) :: (if e.type = .core then [.notify .odom] else [])
        | none => [])) ∧
    ((∀ id ∈ s.upd, s.cfg.idCore ≠ some id) → t.odo = s.odo ∧ t.freeCount = s.freeCount) ∧
    (∀ (id : Byte) (body : Bytes), s.cfg.idCore = some id → id ∈ s.upd → s.recs.core = some body →
      ∃ (ts el er : Word16) (u : State),
        (∀ v, Spec.fieldAt body s.cfg.offTs v → ts = v) ∧
        (∀ v, Spec.fieldAt body s.cfg.offEncL v → el = v) ∧
        (∀ v, Spec.fieldAt body s.cfg.offEncR v → er = v) ∧
        exec (.odUpdate ts el er) s = .next u ∧ t.odo = u.odo)

/-- R161, R162, R182: after the loop of a pass every id in the set is in the Registry, its record is written,
and the set is ascending. -/
def Obligations.LoopLeavesRegistryIds : Prop :=
  ∀ (s : State) (k : Nat), s.upd = [] →
    (∀ j, j < k → 1 < (subStep^[j] s).dpBuf.length) →
    ascending (subStep^[k] s).upd ∧
    ∀ id ∈ (subStep^[k] s).upd, ∃ e, regLookup s.cfg id = some e ∧
      (recGet (subStep^[k] s).recs e.type).isSome = true

/-- R164 (the spec derives it), R310: a pass emits pulses only, and none of them twice, however often an id
occurs in the frame. -/
def Obligations.PassEmitsEachPulseOnce : Prop :=
  ∀ (body : Bytes) (s : State), configValid s.cfg = true →
    ∃ (t : State) (new : List Output), exec (.dpPass body) s = .next t ∧
      t.trace = s.trace ++ new ∧ new.Nodup ∧ ∀ o ∈ new, ∃ p, o = .notify p

/-! ### The Odometry Integrator -/

/-- R203 with R201, R202: on exact numbers each wheel's position moves by its signed 16-bit tick delta times
the angle of a tick; an unseeded wheel's delta is zero. -/
def Obligations.PositionAccumulatesSignedDelta : Prop :=
  ∀ (ts el er : Word16) (s : State), s.cfg.numerics = .exact →
    ∃ t : State, exec (.odUpdate ts el er) s = .next t ∧
      t.odo.left.lastRad = s.odo.left.lastRad +
        ((if s.odo.left.init then Spec.sdiff16 el s.odo.left.lastTick else 0 : Int) : Rat) *
          s.cfg.tickToRad ∧
      t.odo.right.lastRad = s.odo.right.lastRad +
        ((if s.odo.right.init then Spec.sdiff16 er s.odo.right.lastTick else 0 : Int) : Rat) *
          s.cfg.tickToRad

/-- R201, R202 (its last line is derived from KC §3), R204 (the millimetre accumulators: the spec's decision
D5): in every number system (D7) the first sample seeds a wheel and every sample becomes the last count; on
exact numbers the millimetres move by the same delta. -/
def Obligations.TicksSeedAndFollow : Prop :=
  ∀ (ts el er : Word16) (s : State), ∃ t : State, exec (.odUpdate ts el er) s = .next t ∧
    t.odo.left.init = true ∧ t.odo.right.init = true ∧
    t.odo.left.lastTick = el ∧ t.odo.right.lastTick = er ∧
    (s.cfg.numerics = .exact →
      t.odo.left.lastMm = s.odo.left.lastMm +
        ((if s.odo.left.init then Spec.sdiff16 el s.odo.left.lastTick else 0 : Int) : Rat) *
          s.cfg.tickToMm ∧
      t.odo.right.lastMm = s.odo.right.lastMm +
        ((if s.odo.right.init then Spec.sdiff16 er s.odo.right.lastTick else 0 : Int) : Rat) *
          s.cfg.tickToMm)

/-- R205, R206: in every number system (D7) a stale time stamp gives zero velocity and leaves the time
registers alone, and any other becomes the last one; on exact numbers velocity is then angle over elapsed
seconds, which are stored. -/
def Obligations.VelocityGuardsStaleTimeStamp : Prop :=
  ∀ (ts el er : Word16) (s : State), ∃ t : State, exec (.odUpdate ts el er) s = .next t ∧
    (ts = s.odo.lastTimestamp →
      t.odo.left.lastVelocity = 0 ∧ t.odo.right.lastVelocity = 0 ∧
      t.odo.lastTimestamp = s.odo.lastTimestamp ∧ t.odo.lastDiffTime = s.odo.lastDiffTime) ∧
    (ts ≠ s.odo.lastTimestamp →
      t.odo.lastTimestamp = ts ∧
      (s.cfg.numerics = .exact →
        t.odo.lastDiffTime = (Spec.sdiff16 ts s.odo.lastTimestamp : Rat) / 1000 ∧
        t.odo.left.lastVelocity =
          ((if s.odo.left.init then Spec.sdiff16 el s.odo.left.lastTick else 0 : Int) : Rat) *
            s.cfg.tickToRad / ((Spec.sdiff16 ts s.odo.lastTimestamp : Rat) / 1000) ∧
        t.odo.right.lastVelocity =
          ((if s.odo.right.init then Spec.sdiff16 er s.odo.right.lastTick else 0 : Int) : Rat) *
            s.cfg.tickToRad / ((Spec.sdiff16 ts s.odo.lastTimestamp : Rat) / 1000)))

/-- R207, R208 (divisor and guarded value: the spec's decision D28), R214 (the formula is a configuration's
choice, D6): in every number system (D7) a stale time stamp gives zero pose rate; on exact numbers the pose
delta is `CFG.FK` of the two wheel angles, and the pose rate of any other time stamp is it over this update's
elapsed time. -/
def Obligations.PoseFollowsKinematics : Prop :=
  ∀ (ts el er : Word16) (s : State) (al ar dt : Rat),
    al = ((if s.odo.left.init then Spec.sdiff16 el s.odo.left.lastTick else 0 : Int) : Rat) *
      s.cfg.tickToRad →
    ar = ((if s.odo.right.init then Spec.sdiff16 er s.odo.right.lastTick else 0 : Int) : Rat) *
      s.cfg.tickToRad →
    dt = (Spec.sdiff16 ts s.odo.lastTimestamp : Rat) / 1000 →
    ∃ t : State, exec (.odUpdate ts el er) s = .next t ∧
      (ts = s.odo.lastTimestamp → t.odo.poseRate = ⟨0, 0, 0⟩) ∧
      (s.cfg.numerics = .exact →
        (s.cfg.fk = .firstOrder → s.cfg.wheelbase ≠ 0 →
          t.odo.poseDelta = ⟨s.cfg.wheelRadius * (al + ar) / 2, 0,
            s.cfg.wheelRadius * (ar - al) / s.cfg.wheelbase⟩) ∧
        (∀ n, s.cfg.fk = .other n →
          t.odo.poseDelta = Config.otherFk n s.cfg.wheelbase s.cfg.wheelRadius al ar) ∧
        (ts ≠ s.odo.lastTimestamp →
          t.odo.poseRate = ⟨t.odo.poseDelta.x / dt, t.odo.poseDelta.y / dt,
            t.odo.poseDelta.theta / dt⟩))

/-- R209 (the spec derives it from R201 to R208): an odometry update completes on all operands and in every
number system, and writes the odometry registers alone. -/
def Obligations.OdometryUpdateTouchesOnlyOdometry : Prop :=
  ∀ (ts el er : Word16) (s : State), ∃ t : State, exec (.odUpdate ts el er) s = .next t ∧
    t = { s with odo := t.odo }

/-! ### Accessors -/

/-- R212, R213, R254 (the accessors' names are the spec's decisions D12, D29): each answers its registers, an
unknown wheel name answers "no value", and nothing changes. -/
def Obligations.AccessorsAnswerAndChangeNothing : Prop :=
  ∀ s : State,
    exec (.getWheel .left) s =
      .next { s with
        trace := s.trace ++ [.answer (.wheel s.odo.left.lastRad s.odo.left.lastVelocity)] } ∧
    exec (.getWheel .right) s =
      .next { s with
        trace := s.trace ++ [.answer (.wheel s.odo.right.lastRad s.odo.right.lastVelocity)] } ∧
    (∀ name, exec (.getWheel (.other name)) s =
      .next { s with trace := s.trace ++ [.answer .noValue] }) ∧
    exec .getPose s =
      .next { s with trace := s.trace ++ [.answer (.pose s.odo.poseDelta s.odo.poseRate)] } ∧
    exec .getCmd s =
      .next { s with trace := s.trace ++ [.answer (.command s.cmd.speed s.cmd.radius)] }

/-- R282: a record accessor answers the record if it is written, with the three views for CORE, and "no value"
otherwise; nothing changes. A view past the end of the body is a free value (log 5). -/
def Obligations.RecordAccessorAnswersCopy : Prop :=
  ∀ (t : RecType) (s : State),
    (recGet s.recs t = none →
      exec (.getRec t) s = .next { s with trace := s.trace ++ [.answer .noValue] }) ∧
    (∀ body, t ≠ .core → recGet s.recs t = some body →
      exec (.getRec t) s = .next { s with trace := s.trace ++ [.answer (.record body)] }) ∧
    (∀ body, t = .core → s.recs.core = some body → ∃ ts el er : Word16,
      (∀ v, Spec.fieldAt body s.cfg.offTs v → ts = v) ∧
      (∀ v, Spec.fieldAt body s.cfg.offEncL v → el = v) ∧
      (∀ v, Spec.fieldAt body s.cfg.offEncR v → er = v) ∧
      exec (.getRec t) s =
        .next { s with trace := s.trace ++ [.answer (.coreRecord body ts el er)] })

/-! ### The Command Encoder -/

/-- R110, R242: the velocity frame is nine bytes, each as the table gives it, and encoding it changes no
register. -/
def Obligations.VelocityFrameHasNineBytes : Prop :=
  ∀ (speed radius : Word16) (s : State), ∃ b4 b5 b6 b7 : Byte,
    b4.toNat = speed.toNat % 256 ∧ b5.toNat = speed.toNat / 256 ∧
    b6.toNat = radius.toNat % 256 ∧ b7.toNat = radius.toNat / 256 ∧
    exec (.ceVelframe speed radius) s =
      .next { s with
        result := .encoded
          [0xAA, 0x55, 0x05, 0x01, b4, b5, b6, b7, xor8 [0x05, 0x01, b4, b5, b6, b7]] }

/-- R241 (the spec derives it from R240 and R134): an encoded velocity command fed to a Framer that takes its
length is yielded unchanged. -/
def Obligations.EncodedCommandPassesFramer : Prop :=
  ∀ (speed radius : Word16) (s : State), s.fr.state = .scan → s.cfg.lenMin ≤ 5 → 5 ≤ s.cfg.lenMax →
    ∃ (u : State) (f : Bytes), exec (.ceVelframe speed radius) s = .next u ∧
      u.result = .encoded f ∧
      exec (.frUpdate f) u =
        .next { u with fr := ⟨.scan, []⟩, result := .frames [f.drop 2] }

/-- R11 (the spec's decision D8): `round` gives a nearest integer, and at a tie the one farther from zero. -/
def Obligations.RoundIsNearestTiesAway : Prop :=
  ∀ q : Rat, 2 * |q - (roundNum .tiesAway q : Rat)| ≤ 1 ∧
    (2 * |q - (roundNum .tiesAway q : Rat)| = 1 → |q| < |(roundNum .tiesAway q : Rat)|)

/-- U6 (log 7): a configuration that leaves ties open still rounds to a nearest integer. -/
def Obligations.OpenRoundIsNearest : Prop :=
  ∀ (n : Nat) (q : Rat), 2 * |q - (roundNum (.other n) q : Rat)| ≤ 1

/-- R245 (its effect: R246, R255, R306, the spec's decisions D30, D31, D34): on exact numbers, with the speed
and radius of the formula, a request whose speed and radius fit stores them and pulses CMD, in every engine
state, and a request of which one does not fit is reported with both as the formula gives them and changes
nothing. -/
def Obligations.VelocityRequestDerivesSpeedAndRadius : Prop :=
  ∀ (v w : Rat) (s : State) (speed radius : Int), s.cfg.numerics = .exact →
    radius = (if w = 0 then 0 else if v = 0 ∧ 0 < w then 1 else if v = 0 ∧ w < 0 then -1
      else roundNum s.cfg.rounding (v * 1000 / w)) →
    speed = roundNum s.cfg.rounding
      (1000 * max (v + s.cfg.wheelbase * w / 2) (v - s.cfg.wheelbase * w / 2)) →
    ((-32768 ≤ speed ∧ speed ≤ 32767 ∧ -32768 ≤ radius ∧ radius ≤ 32767) →
      ∃ t : State, exec (.setVel v w) s = .next t ∧
        t.cmd.speed.toInt = speed ∧ t.cmd.radius.toInt = radius ∧
        t = { s with cmd := t.cmd, trace := s.trace ++ [.notify .cmd] }) ∧
    (¬ (-32768 ≤ speed ∧ speed ≤ 32767 ∧ -32768 ≤ radius ∧ radius ≤ 32767) →
      exec (.setVel v w) s =
        .next { s with trace := s.trace ++ [.err (.cmdRange speed radius)] })

/-- R246, R255 (the spec's decisions D30, D31, D34), R306: in every number system, with the speed and radius
the model computes in it, a request that fits pulses CMD and transmits nothing; one that does not fit is
reported with both values and changes nothing. -/
def Obligations.VelocityRequestPulsesOrReports : Prop :=
  ∀ (v w : Rat) (s : State),
    ((-32768 ≤ speedOf s.cfg v w ∧ speedOf s.cfg v w ≤ 32767 ∧ -32768 ≤ radiusOf s.cfg v w ∧
        radiusOf s.cfg v w ≤ 32767) →
      ∃ t : State, exec (.setVel v w) s = .next t ∧
        t = { s with cmd := t.cmd, trace := s.trace ++ [.notify .cmd] }) ∧
    (¬ (-32768 ≤ speedOf s.cfg v w ∧ speedOf s.cfg v w ≤ 32767 ∧ -32768 ≤ radiusOf s.cfg v w ∧
        radiusOf s.cfg v w ≤ 32767) →
      exec (.setVel v w) s =
        .next { s with
          trace := s.trace ++ [.err (.cmdRange (speedOf s.cfg v w) (radiusOf s.cfg v w))] })

/-- R112, R249, R250 (sent inside the event: the spec's decision D32): a serialized payload of at most 255
bytes goes out as one frame, and a base-control command is mirrored into the pair and pulsed. -/
def Obligations.GenericCommandIsFramedAndMirrored : Prop :=
  ∀ (p : Bytes) (s : State), p.length ≤ 255 →
    (∀ n, exec (.generic (.other n) (some p)) s =
      .next { s with
        trace := s.trace ++
          [.tx ([0xAA, 0x55, BitVec.ofNat 8 p.length] ++ p ++
            [xor8 (BitVec.ofNat 8 p.length :: p)])] }) ∧
    (∀ speed radius, exec (.generic (.baseControl speed radius) (some p)) s =
      .next { s with
        cmd := ⟨speed, radius⟩
        trace := s.trace ++
          [.tx ([0xAA, 0x55, BitVec.ofNat 8 p.length] ++ p ++
            [xor8 (BitVec.ofNat 8 p.length :: p)]), .notify .cmd] })

/-- R252, R304 (the limit of 255 bytes: the spec's decision D33): a serialization failure is reported with its
command and does nothing else. -/
def Obligations.SerializationFailureSendsNothing : Prop :=
  ∀ (cmd : Cmd) (answer : Option Bytes) (s : State),
    (answer = none ∨ ∃ p, answer = some p ∧ 255 < p.length) →
    exec (.generic cmd answer) s =
      .next { s with trace := s.trace ++ [.err (.serialization cmd)] }

/-! ### The Engine Loop -/

/-- R271 (the spec's decision D35): Run moves to Running from every state and changes nothing else. -/
def Obligations.RunChangesOnlyEngineState : Prop :=
  ∀ s : State, exec .run s = .next { s with enState := .running }

/-- R273 (the spec's decision D36): Stop zeroes the pair, pulses, transmits the zero frame, and stops a
running engine. -/
def Obligations.StopSendsZeroFrame : Prop :=
  ∀ s : State, ∃ t : State, exec .stop s = .next t ∧
    t = { s with
      cmd := ⟨0, 0⟩, enState := t.enState
      trace := s.trace ++
        [.notify .cmd, .tx [0xAA, 0x55, 0x05, 0x01, 0x00, 0x00, 0x00, 0x00, 0x04]] } ∧
    (s.enState = .running → t.enState = .stopped) ∧
    (s.enState ≠ .running → t.enState = s.enState)

/-- R274 (the spec's decision D37): in Idle an iteration is refused: no effect at all. -/
def Obligations.IdleRefusesIteration : Prop :=
  ∀ (bytes : Bytes) (s : State), s.enState = .idle → exec (.iter bytes) s = .next s

/-- R275, R277 (the spec's decision D25): an iteration reports an empty read, then is FR.UPDATE of its bytes
followed by DP.PASS of each yielded body in order, then sends one frame: the stored command while Running, the
zero command while Stopped (R279). -/
def Obligations.IterationIsUpdateThenPasses : Prop :=
  ∀ (bytes : Bytes) (s : State), s.enState ≠ .idle →
    ∃ (s1 s2 t : State) (bodies : List Bytes),
      exec (.frUpdate bytes)
        { s with trace := s.trace ++ (if bytes = [] then [.err .transient] else []) } = .next s1 ∧
      s1.result = .frames bodies ∧
      Spec.performAll (bodies.map .dpPass) { s1 with result := s.result } = .next s2 ∧
      t = { s2 with
        trace := s2.trace ++
          [.tx (if s.enState = .running then velFrame s.cmd.speed s.cmd.radius
            else velFrame 0 0)] } ∧
      exec (.iter bytes) s = .next t

/-- R276, R279 (the spec's decisions D36, D38): what an iteration emits: a report of an empty read if it was
one, pulses, and last exactly one frame. -/
def Obligations.IterationSendsExactlyOneFrame : Prop :=
  ∀ (bytes : Bytes) (s : State), s.enState ≠ .idle →
    ∃ (t : State) (pulses : List Output), exec (.iter bytes) s = .next t ∧
      (∀ o ∈ pulses, ∃ p, o = .notify p) ∧
      t.trace = s.trace ++ (if bytes = [] then [.err .transient] else []) ++ pulses ++
        [.tx (if s.enState = .running then velFrame s.cmd.speed s.cmd.radius else velFrame 0 0)]

/-- R184 (the spec derives it), R275: an iteration between events changes neither the command pair, the engine
state, the configuration nor the queue, and leaves buffer and set empty. -/
def Obligations.IterationFrame : Prop :=
  ∀ (bytes : Bytes) (s : State), s.dpBuf = [] → s.upd = [] →
    ∃ t : State, exec (.iter bytes) s = .next t ∧
      t = { s with
        fr := t.fr, recs := t.recs, odo := t.odo, trace := t.trace, freeCount := t.freeCount }

/-! ### Whole-machine rules -/

/-- R6 (the spec's decision D9; the queue is the model's, log 3), R72: a step performs the oldest operation
asked for, whole, and takes it from the queue. -/
def Obligations.StepRunsOldestOperation : Prop :=
  ∀ (s : State) (i : Instr) (rest : List Instr), configValid s.cfg = true → s.queue = i :: rest →
    step s = exec i { s with queue := rest }

/-- R46 (the spec derives it), R342: with nothing asked for, nothing happens. -/
def Obligations.StepWithoutRequestDoesNothing : Prop :=
  ∀ s : State, configValid s.cfg = true → s.queue = [] → step s = .next s

/-- R305, U19 (that a step of it faults is the model's form, NOTES.md Stops): a machine whose configuration is
invalid takes no step. -/
def Obligations.InvalidConfigurationTakesNoStep : Prop :=
  ∀ s : State, configValid s.cfg = false → step s = .fault .configInvalid

/-- R344 (the spec's decision D40): construction with every parameter given fails exactly when one of the
listed conditions holds; with distinct ids, which make the Registry a map. -/
def Obligations.ConstructionFailsExactlyWhenListed : Prop :=
  ∀ c : Config, (c.reg.map (·.id)).Nodup →
    (construct (configParams c) = .fault .configInvalid ↔
      ¬ (c.lenMin ≤ c.lenMax ∧ c.lenMax ≤ 255) ∨
      (∃ a ∈ c.reg, ∃ b ∈ c.reg, a.id ≠ b.id ∧ a.type = b.type) ∨
      (∃ id, c.idCore = some id ∧ ¬ ∃ e, regLookup c id = some e ∧ e.type = .core) ∨
      (c.idCore = none ∧ ∃ e ∈ c.reg, e.type = .core) ∨
      (∃ e ∈ c.reg, ∃ n, e.type = .core ∧ e.width = .fixed n ∧
        (n < c.offTs + 2 ∨ n < c.offEncL + 2 ∨ n < c.offEncR + 2)) ∨
      (c.offTs < c.offEncL + 2 ∧ c.offEncL < c.offTs + 2) ∨
      (c.offTs < c.offEncR + 2 ∧ c.offEncR < c.offTs + 2) ∨
      (c.offEncL < c.offEncR + 2 ∧ c.offEncR < c.offEncL + 2) ∨
      c.wheelbase = 0) ∧
    (construct (configParams c) ≠ .fault .configInvalid →
      construct (configParams c) = .next (State.init c))

/-- R344: a missing required parameter fails the construction. -/
def Obligations.MissingParameterFailsConstruction : Prop :=
  ∀ p : Params,
    (p.lenMin = none ∨ p.lenMax = none ∨ p.checkEn = none ∨ p.reg = none ∨ p.idCore = none ∨
      p.offTs = none ∨ p.offEncL = none ∨ p.offEncR = none ∨ p.wheelbase = none ∨
      p.wheelRadius = none ∨ p.tickToRad = none ∨ p.tickToMm = none ∨ p.fk = none) →
    construct p = .fault .configInvalid

/-- R45, R340 (which values are the spec's decisions D10 to D14: R45's third column): what reset leaves,
whatever the device's configuration is. `last_tick` is unspecified there and not mentioned here. The last
three clauses are the model's choices, not values of the table: the configuration is the opaque
`Config.device` (log 2), and the model's own queue (log 3) and trace (log 4) are empty. -/
def Obligations.ResetLeavesTableValues : Prop :=
  State.reset.fr = ⟨.scan, []⟩ ∧ State.reset.dpBuf = [] ∧ State.reset.upd = [] ∧
  (∀ t, recGet State.reset.recs t = none) ∧
  State.reset.odo.left.init = false ∧ State.reset.odo.right.init = false ∧
  State.reset.odo.left.lastRad = 0 ∧ State.reset.odo.right.lastRad = 0 ∧
  State.reset.odo.left.lastMm = 0 ∧ State.reset.odo.right.lastMm = 0 ∧
  State.reset.odo.left.lastVelocity = 0 ∧ State.reset.odo.right.lastVelocity = 0 ∧
  State.reset.odo.lastTimestamp = 0 ∧ State.reset.odo.lastDiffTime = 0 ∧
  State.reset.odo.poseDelta = ⟨0, 0, 0⟩ ∧ State.reset.odo.poseRate = ⟨0, 0, 0⟩ ∧
  State.reset.cmd = ⟨0, 0⟩ ∧ State.reset.enState = .idle ∧ State.reset.cfg = Config.device ∧
  State.reset.queue = [] ∧ State.reset.trace = []

/-- The invariant between events holds at reset; its clause about the queue is the model's (log 3). -/
def Obligations.ResetMeetsInvariant : Prop := Inv State.reset

/-- R23 (D3, D14), R28 and R345 (the spec derives both), R29, R30, R62, R201: every step keeps the invariant
between events: the Framer invariant, the empty buffer and set, the records' widths, wheels seeded exactly
when CORE was decoded and the odometry registers but `last_tick` (unspecified there, log 1) at reset before,
whole frames only on the TX stream. Its last clause is about the model's own queue: it holds input events only
(log 3). -/
def Obligations.EveryStepKeepsInvariant : Prop :=
  ∀ s t : State, Inv s → step s = .next t → Inv t

/-- R43: no operation writes a configuration register. And none writes the queue, the model's own field (log
3). -/
def Obligations.ConfigurationIsReadOnly : Prop :=
  ∀ (i : Instr) (s t : State), exec i s = .next t → t.cfg = s.cfg ∧ t.queue = s.queue

/-- R39 (its reset value is D13), R250, R251 (the limit of 255 bytes: the spec's decision D33), conflict C7:
only SETVEL, a sent base-control GENERIC and STOP write the command pair. -/
def Obligations.OnlyCommandEventsWritePair : Prop :=
  ∀ (i : Instr) (s t : State), exec i s = .next t → t.cmd ≠ s.cmd →
    (∃ v w, i = .setVel v w) ∨
      (∃ sp ra p, i = .generic (.baseControl sp ra) (some p) ∧ p.length ≤ 255) ∨ i = .stop

/-- R270: only RUN leaves Idle or Stopped, and only STOP leaves Running. -/
def Obligations.OnlyRunAndStopMoveEngine : Prop :=
  ∀ (i : Instr) (s t : State), exec i s = .next t → t.enState ≠ s.enState →
    (i = .run ∧ t.enState = .running) ∨
      (i = .stop ∧ s.enState = .running ∧ t.enState = .stopped)

/-- R24, R25 (the spec's decision D14), R182: a record changes only by a decode of its own type: alone, or
inside a pass or an iteration that then notifies that type; and it never becomes unwritten again. -/
def Obligations.RecordsChangeOnlyByDecode : Prop :=
  ∀ (i : Instr) (s s' : State) (t : RecType), exec i s = .next s' →
    (recGet s'.recs t ≠ recGet s.recs t →
      (∃ id w, (i, t) ∈ Spec.decodes id w) ∨
        (((∃ body, i = .dpPass body) ∨ (∃ bytes, i = .iter bytes)) ∧
          ∃ new, s'.trace = s.trace ++ new ∧ .notify (.record t) ∈ new)) ∧
    ((recGet s.recs t).isSome = true → (recGet s'.recs t).isSome = true)

/-- R7, R307 (the spec's decisions D9, D22; the trace as a field is the model's, log 4): the output trace is
write-only: what an operation does and what it appends do not depend on it, and it only grows. -/
def Obligations.TraceIsNeverRead : Prop :=
  ∀ (i : Instr) (s : State), ∃ (t : State) (new : List Output), ∀ tr : List Output,
    exec i { s with trace := tr } = .next { t with trace := tr ++ new }

/-- R62: every frame any operation transmits is one complete frame, start sequence to checksum byte. -/
def Obligations.EveryTransmissionIsOneFrame : Prop :=
  ∀ (i : Instr) (s t : State), exec i s = .next t →
    ∃ new, t.trace = s.trace ++ new ∧
      ∀ f, .tx f ∈ new → ∃ n rest, f = 0xAA :: 0x55 :: n :: rest ∧ rest.length = n.toNat + 1 ∧
        xor8 (n :: rest) = 0

/-! ### Encodings -/

/-- R116 (the spec's decision D21; lines of the operations that are no events: log 15): every operation a
stimulus line can carry is read back from its line, with every operand. -/
def Obligations.StimulusLineRoundTrip : Prop :=
  ∀ i : Instr, i.writable = true → decode (encode i) = .ok i

/-- Reading an outbound frame back is the model's own (log 21), from the formats of R110 and R112: a velocity
frame is read back with its speed and radius, and a generic frame with its payload. The command value of
GENERIC is not in the frame, so it reads as token 0 whatever it was. A generic payload of five bytes that
begins with the velocity command id reads as a velocity command. -/
def Obligations.CommandFrameRoundTrip : Prop :=
  (∀ speed radius, decodeCommand (velFrame speed radius) = .ok (.ceVelframe speed radius)) ∧
  (∀ p : Bytes, p.length ≤ 255 → ¬ (p.length = 5 ∧ p.head? = some 0x01) →
    decodeCommand (frameOf p) = .ok (.generic (.other 0) (some p)))

/-- R101, R110, R112, R116 (its lines are the spec's decision D21): words written out from the spec's
encodings decode to the operations they stand for, with the Registry of `CFG0`. That an outbound frame is read
back is the model's own (log 21). -/
def Obligations.WrittenWordsDecode : Prop :=
  decodeCommand [0xAA, 0x55, 0x05, 0x01, 0x67, 0x02, 0xF4, 0x01, 0x94] =
      .ok (.ceVelframe 615 500) ∧
  decodeCommand [0xAA, 0x55, 0x04, 0x09, 0x02, 0x34, 0x12, 0x29] =
      .ok (.generic (.other 0) (some [0x09, 0x02, 0x34, 0x12])) ∧
  decodeCommand [0xAA, 0x55, 0x03, 0x06, 0x11, 0x22, 0xC9] = .reject .frameChecksum ∧
  decodeHeader Config.cfg0 [0x06, 0x11, 0x22, 0x36] = some (.spCurrent 0x06 2) ∧
  decodeHeader Config.cfg0 [0x63, 0x01, 0x02] = some (.spUnknown 0x63) ∧
  decodeHeader Config.cfg0 [0x06, 0x11, 0x36] = some (.spTrunc 0x06) ∧
  decodeLine "SETVEL 0.5 -1".toList = .ok (.setVel (1 / 2) (-1)) ∧
  decodeLine "GENERIC BASE -100 250 / OK 01 9C FF FA 00".toList =
      .ok (.generic (.baseControl (-100) 250) (some [0x01, 0x9C, 0xFF, 0xFA, 0x00])) ∧
  decodeLine "ITER AA 55".toList = .ok (.iter [0xAA, 0x55])
end

