-- ==== Sys2Proof/Laws/Bytes.lean ====
section
/-! SUPPORT. Laws of the byte, sign and checksum helpers (R8, R9, R91). -/

-- One theorem after another: the joined text then keeps few threads at a time.
set_option Elab.async false

namespace Sys2Proof.Machine

@[simp] theorem xor8_nil : xor8 [] = 0 := rfl
@[simp] theorem xor8_cons (b : Byte) (bs : Bytes) : xor8 (b :: bs) = b ^^^ xor8 bs := rfl

theorem xor8_append (s t : Bytes) : xor8 (s ++ t) = xor8 s ^^^ xor8 t := by
  induction s with
  | nil => simp
  | cons b bs ih => simp [ih, BitVec.xor_assoc]

/-- A sequence closed by its own checksum has checksum zero (R91, R240). -/
theorem xor8_closed (s : Bytes) : xor8 (s ++ [xor8 s]) = 0 := by
  simp [xor8_append]

/-- Changing one byte changes the checksum (R143). -/
theorem xor8_changed (p q : Bytes) {x y : Byte} (h : x ≠ y) :
    xor8 (p ++ x :: q) ≠ xor8 (p ++ y :: q) := by
  intro e
  simp only [xor8_append, xor8_cons] at e
  have e1 := (BitVec.xor_right_inj _).1 e
  rw [BitVec.xor_comm x, BitVec.xor_comm y] at e1
  exact h ((BitVec.xor_right_inj _).1 e1)

theorem u16le_toNat (lo hi : Byte) : (u16le lo hi).toNat = lo.toNat + 256 * hi.toNat := by
  unfold u16le
  rw [BitVec.toNat_append, ← Nat.shiftLeft_add_eq_or_of_lt lo.isLt, Nat.shiftLeft_eq]
  omega

theorem le16_eq (v : Word16) :
    le16 v = [BitVec.ofNat 8 (v.toNat % 256), BitVec.ofNat 8 (v.toNat / 256)] := by
  have := v.isLt
  simp only [le16, List.cons.injEq, and_true]
  constructor <;> apply BitVec.eq_of_toNat_eq <;>
    simp [BitVec.extractLsb'_toNat, Nat.shiftRight_eq_div_pow]

/-- The two bytes of a quantity, read back, give it (R64, R65). -/
theorem u16le_le16 (v : Word16) : u16le (v.extractLsb' 0 8) (v.extractLsb' 8 8) = v := by
  have := v.isLt
  apply BitVec.eq_of_toNat_eq
  simp only [u16le_toNat, BitVec.extractLsb'_toNat, Nat.shiftRight_eq_div_pow]
  omega

/-- The model's signed difference is the spec's (R8). -/
theorem sdiff16_eq (a b : Word16) : sdiff16 a b = Spec.sdiff16 a b := by
  have ha := a.isLt
  have hb := b.isLt
  have e : ((a - b).toNat : Int) = ((a.toNat : Int) - b.toNat) % 65536 := by
    rw [BitVec.toNat_sub]
    push_cast
    omega
  have hlt := (a - b).isLt
  unfold sdiff16 Spec.sdiff16 Spec.asI16
  rw [← e, BitVec.toInt_eq_toNat_cond]
  split <;> split <;> push_cast <;> omega

theorem sdiff16_self (a : Word16) : sdiff16 a a = 0 := by simp [sdiff16]

theorem toI16_toInt {i : Int} (h : fitsI16 i = true) : (toI16 i).toInt = i := by
  simp only [fitsI16, Bool.and_eq_true, decide_eq_true_eq] at h
  simp only [toI16, BitVec.toInt_ofInt]
  exact Int.bmod_eq_of_le (by omega) (by omega)

/-- The frame around a payload is the spec's frame (R90, R240). -/
theorem frameOf_eq (p : Bytes) : frameOf p = Spec.wireFrame p := rfl

theorem frameOf_complete {p : Bytes} (h : p.length ≤ 255) : frameComplete (frameOf p) = true := by
  have hl : (BitVec.ofNat 8 p.length).toNat = p.length := by
    simp; omega
  have hx := xor8_closed (BitVec.ofNat 8 p.length :: p)
  simp only [frameOf, frameComplete, Config.stx0, Config.stx1]
  simp [hl] at hx ⊢
  exact hx

theorem velFrame_eq (s r : Word16) : velFrame s r = frameOf (velPayload s r) := rfl

theorem velPayload_length (s r : Word16) : (velPayload s r).length = 5 := rfl

theorem velFrame_complete (s r : Word16) : frameComplete (velFrame s r) = true :=
  frameOf_complete (by simp [velPayload_length])

end Sys2Proof.Machine
end

