-- ==== Sys2Proof/Laws/State.lean ====
section
/-! SUPPORT. One lemma per field of the state per register write and per output, all by `rfl`. -/

-- One theorem after another: the joined text then keeps few threads at a time.
set_option Elab.async false

namespace Sys2Proof.Machine

variable (s : State)

@[simp] theorem State.setFr_fr (v : Framer) : (s.setFr v).fr = v := rfl
@[simp] theorem State.setFr_dpBuf (v : Framer) : (s.setFr v).dpBuf = s.dpBuf := rfl
@[simp] theorem State.setFr_upd (v : Framer) : (s.setFr v).upd = s.upd := rfl
@[simp] theorem State.setFr_recs (v : Framer) : (s.setFr v).recs = s.recs := rfl
@[simp] theorem State.setFr_odo (v : Framer) : (s.setFr v).odo = s.odo := rfl
@[simp] theorem State.setFr_cmd (v : Framer) : (s.setFr v).cmd = s.cmd := rfl
@[simp] theorem State.setFr_enState (v : Framer) : (s.setFr v).enState = s.enState := rfl
@[simp] theorem State.setFr_cfg (v : Framer) : (s.setFr v).cfg = s.cfg := rfl
@[simp] theorem State.setFr_queue (v : Framer) : (s.setFr v).queue = s.queue := rfl
@[simp] theorem State.setFr_trace (v : Framer) : (s.setFr v).trace = s.trace := rfl
@[simp] theorem State.setFr_result (v : Framer) : (s.setFr v).result = s.result := rfl
@[simp] theorem State.setFr_freeCount (v : Framer) : (s.setFr v).freeCount = s.freeCount := rfl

@[simp] theorem State.setDpBuf_fr (v : Bytes) : (s.setDpBuf v).fr = s.fr := rfl
@[simp] theorem State.setDpBuf_dpBuf (v : Bytes) : (s.setDpBuf v).dpBuf = v := rfl
@[simp] theorem State.setDpBuf_upd (v : Bytes) : (s.setDpBuf v).upd = s.upd := rfl
@[simp] theorem State.setDpBuf_recs (v : Bytes) : (s.setDpBuf v).recs = s.recs := rfl
@[simp] theorem State.setDpBuf_odo (v : Bytes) : (s.setDpBuf v).odo = s.odo := rfl
@[simp] theorem State.setDpBuf_cmd (v : Bytes) : (s.setDpBuf v).cmd = s.cmd := rfl
@[simp] theorem State.setDpBuf_enState (v : Bytes) : (s.setDpBuf v).enState = s.enState := rfl
@[simp] theorem State.setDpBuf_cfg (v : Bytes) : (s.setDpBuf v).cfg = s.cfg := rfl
@[simp] theorem State.setDpBuf_queue (v : Bytes) : (s.setDpBuf v).queue = s.queue := rfl
@[simp] theorem State.setDpBuf_trace (v : Bytes) : (s.setDpBuf v).trace = s.trace := rfl
@[simp] theorem State.setDpBuf_result (v : Bytes) : (s.setDpBuf v).result = s.result := rfl
@[simp] theorem State.setDpBuf_freeCount (v : Bytes) : (s.setDpBuf v).freeCount = s.freeCount := rfl

@[simp] theorem State.setUpd_fr (v : List Byte) : (s.setUpd v).fr = s.fr := rfl
@[simp] theorem State.setUpd_dpBuf (v : List Byte) : (s.setUpd v).dpBuf = s.dpBuf := rfl
@[simp] theorem State.setUpd_upd (v : List Byte) : (s.setUpd v).upd = v := rfl
@[simp] theorem State.setUpd_recs (v : List Byte) : (s.setUpd v).recs = s.recs := rfl
@[simp] theorem State.setUpd_odo (v : List Byte) : (s.setUpd v).odo = s.odo := rfl
@[simp] theorem State.setUpd_cmd (v : List Byte) : (s.setUpd v).cmd = s.cmd := rfl
@[simp] theorem State.setUpd_enState (v : List Byte) : (s.setUpd v).enState = s.enState := rfl
@[simp] theorem State.setUpd_cfg (v : List Byte) : (s.setUpd v).cfg = s.cfg := rfl
@[simp] theorem State.setUpd_queue (v : List Byte) : (s.setUpd v).queue = s.queue := rfl
@[simp] theorem State.setUpd_trace (v : List Byte) : (s.setUpd v).trace = s.trace := rfl
@[simp] theorem State.setUpd_result (v : List Byte) : (s.setUpd v).result = s.result := rfl
@[simp] theorem State.setUpd_freeCount (v : List Byte) : (s.setUpd v).freeCount = s.freeCount := rfl

@[simp] theorem State.setRecs_fr (v : Records) : (s.setRecs v).fr = s.fr := rfl
@[simp] theorem State.setRecs_dpBuf (v : Records) : (s.setRecs v).dpBuf = s.dpBuf := rfl
@[simp] theorem State.setRecs_upd (v : Records) : (s.setRecs v).upd = s.upd := rfl
@[simp] theorem State.setRecs_recs (v : Records) : (s.setRecs v).recs = v := rfl
@[simp] theorem State.setRecs_odo (v : Records) : (s.setRecs v).odo = s.odo := rfl
@[simp] theorem State.setRecs_cmd (v : Records) : (s.setRecs v).cmd = s.cmd := rfl
@[simp] theorem State.setRecs_enState (v : Records) : (s.setRecs v).enState = s.enState := rfl
@[simp] theorem State.setRecs_cfg (v : Records) : (s.setRecs v).cfg = s.cfg := rfl
@[simp] theorem State.setRecs_queue (v : Records) : (s.setRecs v).queue = s.queue := rfl
@[simp] theorem State.setRecs_trace (v : Records) : (s.setRecs v).trace = s.trace := rfl
@[simp] theorem State.setRecs_result (v : Records) : (s.setRecs v).result = s.result := rfl
@[simp] theorem State.setRecs_freeCount (v : Records) : (s.setRecs v).freeCount = s.freeCount := rfl

@[simp] theorem State.setOdo_fr (v : Odometry) : (s.setOdo v).fr = s.fr := rfl
@[simp] theorem State.setOdo_dpBuf (v : Odometry) : (s.setOdo v).dpBuf = s.dpBuf := rfl
@[simp] theorem State.setOdo_upd (v : Odometry) : (s.setOdo v).upd = s.upd := rfl
@[simp] theorem State.setOdo_recs (v : Odometry) : (s.setOdo v).recs = s.recs := rfl
@[simp] theorem State.setOdo_odo (v : Odometry) : (s.setOdo v).odo = v := rfl
@[simp] theorem State.setOdo_cmd (v : Odometry) : (s.setOdo v).cmd = s.cmd := rfl
@[simp] theorem State.setOdo_enState (v : Odometry) : (s.setOdo v).enState = s.enState := rfl
@[simp] theorem State.setOdo_cfg (v : Odometry) : (s.setOdo v).cfg = s.cfg := rfl
@[simp] theorem State.setOdo_queue (v : Odometry) : (s.setOdo v).queue = s.queue := rfl
@[simp] theorem State.setOdo_trace (v : Odometry) : (s.setOdo v).trace = s.trace := rfl
@[simp] theorem State.setOdo_result (v : Odometry) : (s.setOdo v).result = s.result := rfl
@[simp] theorem State.setOdo_freeCount (v : Odometry) : (s.setOdo v).freeCount = s.freeCount := rfl

@[simp] theorem State.setCmd_fr (v : CmdPair) : (s.setCmd v).fr = s.fr := rfl
@[simp] theorem State.setCmd_dpBuf (v : CmdPair) : (s.setCmd v).dpBuf = s.dpBuf := rfl
@[simp] theorem State.setCmd_upd (v : CmdPair) : (s.setCmd v).upd = s.upd := rfl
@[simp] theorem State.setCmd_recs (v : CmdPair) : (s.setCmd v).recs = s.recs := rfl
@[simp] theorem State.setCmd_odo (v : CmdPair) : (s.setCmd v).odo = s.odo := rfl
@[simp] theorem State.setCmd_cmd (v : CmdPair) : (s.setCmd v).cmd = v := rfl
@[simp] theorem State.setCmd_enState (v : CmdPair) : (s.setCmd v).enState = s.enState := rfl
@[simp] theorem State.setCmd_cfg (v : CmdPair) : (s.setCmd v).cfg = s.cfg := rfl
@[simp] theorem State.setCmd_queue (v : CmdPair) : (s.setCmd v).queue = s.queue := rfl
@[simp] theorem State.setCmd_trace (v : CmdPair) : (s.setCmd v).trace = s.trace := rfl
@[simp] theorem State.setCmd_result (v : CmdPair) : (s.setCmd v).result = s.result := rfl
@[simp] theorem State.setCmd_freeCount (v : CmdPair) : (s.setCmd v).freeCount = s.freeCount := rfl

@[simp] theorem State.setEn_fr (v : EnState) : (s.setEn v).fr = s.fr := rfl
@[simp] theorem State.setEn_dpBuf (v : EnState) : (s.setEn v).dpBuf = s.dpBuf := rfl
@[simp] theorem State.setEn_upd (v : EnState) : (s.setEn v).upd = s.upd := rfl
@[simp] theorem State.setEn_recs (v : EnState) : (s.setEn v).recs = s.recs := rfl
@[simp] theorem State.setEn_odo (v : EnState) : (s.setEn v).odo = s.odo := rfl
@[simp] theorem State.setEn_cmd (v : EnState) : (s.setEn v).cmd = s.cmd := rfl
@[simp] theorem State.setEn_enState (v : EnState) : (s.setEn v).enState = v := rfl
@[simp] theorem State.setEn_cfg (v : EnState) : (s.setEn v).cfg = s.cfg := rfl
@[simp] theorem State.setEn_queue (v : EnState) : (s.setEn v).queue = s.queue := rfl
@[simp] theorem State.setEn_trace (v : EnState) : (s.setEn v).trace = s.trace := rfl
@[simp] theorem State.setEn_result (v : EnState) : (s.setEn v).result = s.result := rfl
@[simp] theorem State.setEn_freeCount (v : EnState) : (s.setEn v).freeCount = s.freeCount := rfl

@[simp] theorem State.setQueue_fr (v : List Instr) : (s.setQueue v).fr = s.fr := rfl
@[simp] theorem State.setQueue_dpBuf (v : List Instr) : (s.setQueue v).dpBuf = s.dpBuf := rfl
@[simp] theorem State.setQueue_upd (v : List Instr) : (s.setQueue v).upd = s.upd := rfl
@[simp] theorem State.setQueue_recs (v : List Instr) : (s.setQueue v).recs = s.recs := rfl
@[simp] theorem State.setQueue_odo (v : List Instr) : (s.setQueue v).odo = s.odo := rfl
@[simp] theorem State.setQueue_cmd (v : List Instr) : (s.setQueue v).cmd = s.cmd := rfl
@[simp] theorem State.setQueue_enState (v : List Instr) : (s.setQueue v).enState = s.enState := rfl
@[simp] theorem State.setQueue_cfg (v : List Instr) : (s.setQueue v).cfg = s.cfg := rfl
@[simp] theorem State.setQueue_queue (v : List Instr) : (s.setQueue v).queue = v := rfl
@[simp] theorem State.setQueue_trace (v : List Instr) : (s.setQueue v).trace = s.trace := rfl
@[simp] theorem State.setQueue_result (v : List Instr) : (s.setQueue v).result = s.result := rfl
@[simp] theorem State.setQueue_freeCount (v : List Instr) : (s.setQueue v).freeCount = s.freeCount := rfl

@[simp] theorem State.setResult_fr (v : Result) : (s.setResult v).fr = s.fr := rfl
@[simp] theorem State.setResult_dpBuf (v : Result) : (s.setResult v).dpBuf = s.dpBuf := rfl
@[simp] theorem State.setResult_upd (v : Result) : (s.setResult v).upd = s.upd := rfl
@[simp] theorem State.setResult_recs (v : Result) : (s.setResult v).recs = s.recs := rfl
@[simp] theorem State.setResult_odo (v : Result) : (s.setResult v).odo = s.odo := rfl
@[simp] theorem State.setResult_cmd (v : Result) : (s.setResult v).cmd = s.cmd := rfl
@[simp] theorem State.setResult_enState (v : Result) : (s.setResult v).enState = s.enState := rfl
@[simp] theorem State.setResult_cfg (v : Result) : (s.setResult v).cfg = s.cfg := rfl
@[simp] theorem State.setResult_queue (v : Result) : (s.setResult v).queue = s.queue := rfl
@[simp] theorem State.setResult_trace (v : Result) : (s.setResult v).trace = s.trace := rfl
@[simp] theorem State.setResult_result (v : Result) : (s.setResult v).result = v := rfl
@[simp] theorem State.setResult_freeCount (v : Result) : (s.setResult v).freeCount = s.freeCount := rfl

@[simp] theorem State.setFree_fr (v : Nat) : (s.setFree v).fr = s.fr := rfl
@[simp] theorem State.setFree_dpBuf (v : Nat) : (s.setFree v).dpBuf = s.dpBuf := rfl
@[simp] theorem State.setFree_upd (v : Nat) : (s.setFree v).upd = s.upd := rfl
@[simp] theorem State.setFree_recs (v : Nat) : (s.setFree v).recs = s.recs := rfl
@[simp] theorem State.setFree_odo (v : Nat) : (s.setFree v).odo = s.odo := rfl
@[simp] theorem State.setFree_cmd (v : Nat) : (s.setFree v).cmd = s.cmd := rfl
@[simp] theorem State.setFree_enState (v : Nat) : (s.setFree v).enState = s.enState := rfl
@[simp] theorem State.setFree_cfg (v : Nat) : (s.setFree v).cfg = s.cfg := rfl
@[simp] theorem State.setFree_queue (v : Nat) : (s.setFree v).queue = s.queue := rfl
@[simp] theorem State.setFree_trace (v : Nat) : (s.setFree v).trace = s.trace := rfl
@[simp] theorem State.setFree_result (v : Nat) : (s.setFree v).result = s.result := rfl
@[simp] theorem State.setFree_freeCount (v : Nat) : (s.setFree v).freeCount = v := rfl

@[simp] theorem State.setCfg_fr (v : Config) : (s.setCfg v).fr = s.fr := rfl
@[simp] theorem State.setCfg_dpBuf (v : Config) : (s.setCfg v).dpBuf = s.dpBuf := rfl
@[simp] theorem State.setCfg_upd (v : Config) : (s.setCfg v).upd = s.upd := rfl
@[simp] theorem State.setCfg_recs (v : Config) : (s.setCfg v).recs = s.recs := rfl
@[simp] theorem State.setCfg_odo (v : Config) : (s.setCfg v).odo = s.odo := rfl
@[simp] theorem State.setCfg_cmd (v : Config) : (s.setCfg v).cmd = s.cmd := rfl
@[simp] theorem State.setCfg_enState (v : Config) : (s.setCfg v).enState = s.enState := rfl
@[simp] theorem State.setCfg_cfg (v : Config) : (s.setCfg v).cfg = v := rfl
@[simp] theorem State.setCfg_queue (v : Config) : (s.setCfg v).queue = s.queue := rfl
@[simp] theorem State.setCfg_trace (v : Config) : (s.setCfg v).trace = s.trace := rfl
@[simp] theorem State.setCfg_result (v : Config) : (s.setCfg v).result = s.result := rfl
@[simp] theorem State.setCfg_freeCount (v : Config) : (s.setCfg v).freeCount = s.freeCount := rfl

@[simp] theorem State.emitAll_fr (os : List Output) : (s.emitAll os).fr = s.fr := rfl
@[simp] theorem State.emitAll_dpBuf (os : List Output) : (s.emitAll os).dpBuf = s.dpBuf := rfl
@[simp] theorem State.emitAll_upd (os : List Output) : (s.emitAll os).upd = s.upd := rfl
@[simp] theorem State.emitAll_recs (os : List Output) : (s.emitAll os).recs = s.recs := rfl
@[simp] theorem State.emitAll_odo (os : List Output) : (s.emitAll os).odo = s.odo := rfl
@[simp] theorem State.emitAll_cmd (os : List Output) : (s.emitAll os).cmd = s.cmd := rfl
@[simp] theorem State.emitAll_enState (os : List Output) : (s.emitAll os).enState = s.enState := rfl
@[simp] theorem State.emitAll_cfg (os : List Output) : (s.emitAll os).cfg = s.cfg := rfl
@[simp] theorem State.emitAll_queue (os : List Output) : (s.emitAll os).queue = s.queue := rfl
@[simp] theorem State.emitAll_trace (os : List Output) : (s.emitAll os).trace = s.trace ++ os := rfl
@[simp] theorem State.emitAll_result (os : List Output) : (s.emitAll os).result = s.result := rfl
@[simp] theorem State.emitAll_freeCount (os : List Output) : (s.emitAll os).freeCount = s.freeCount := rfl

@[simp] theorem State.emit_fr (o : Output) : (s.emit o).fr = s.fr := rfl
@[simp] theorem State.emit_dpBuf (o : Output) : (s.emit o).dpBuf = s.dpBuf := rfl
@[simp] theorem State.emit_upd (o : Output) : (s.emit o).upd = s.upd := rfl
@[simp] theorem State.emit_recs (o : Output) : (s.emit o).recs = s.recs := rfl
@[simp] theorem State.emit_odo (o : Output) : (s.emit o).odo = s.odo := rfl
@[simp] theorem State.emit_cmd (o : Output) : (s.emit o).cmd = s.cmd := rfl
@[simp] theorem State.emit_enState (o : Output) : (s.emit o).enState = s.enState := rfl
@[simp] theorem State.emit_cfg (o : Output) : (s.emit o).cfg = s.cfg := rfl
@[simp] theorem State.emit_queue (o : Output) : (s.emit o).queue = s.queue := rfl
@[simp] theorem State.emit_trace (o : Output) : (s.emit o).trace = s.trace ++ [o] := rfl
@[simp] theorem State.emit_result (o : Output) : (s.emit o).result = s.result := rfl
@[simp] theorem State.emit_freeCount (o : Output) : (s.emit o).freeCount = s.freeCount := rfl

end Sys2Proof.Machine
end

