-- ==== Sys2Proof/Laws/Ops.lean ====
section
/-! SUPPORT. What each shared operation over the state does: records, sets of ids, raising an error. -/

-- One theorem after another: the joined text then keeps few threads at a time.
set_option Elab.async false

namespace Sys2Proof.Machine

/-! ### Records -/

@[simp] theorem recGet_recSet_same (r : Records) (t : RecType) (b : Bytes) :
    recGet (recSet r t b) t = some b := by cases t <;> rfl

theorem recGet_recSet_other (r : Records) {t u : RecType} (h : u ≠ t) (b : Bytes) :
    recGet (recSet r t b) u = recGet r u := by
  cases t <;> cases u <;> first | rfl | exact absurd rfl h

theorem recGet_recSet_isSome (r : Records) (t u : RecType) (b : Bytes)
    (h : (recGet r u).isSome) : (recGet (recSet r t b) u).isSome := by
  by_cases hu : u = t
  · subst hu; simp
  · rwa [recGet_recSet_other r hu]

@[simp] theorem recGet_reset (t : RecType) : recGet Records.reset t = none := by cases t <;> rfl

theorem recs_core_eq (r : Records) : r.core = recGet r .core := rfl

/-! ### Sets of header ids -/

@[simp] theorem mem_setInsert (x id : Byte) (u : List Byte) :
    x ∈ setInsert id u ↔ x = id ∨ x ∈ u := by
  induction u with
  | nil => simp [setInsert]
  | cons y ys ih =>
    unfold setInsert
    split
    · simp
    · split
      · next h => subst h; simp
      · simp [ih]; tauto

theorem setInsert_ascending (id : Byte) {u : List Byte} (h : ascending u) :
    ascending (setInsert id u) := by
  induction u with
  | nil => simp [setInsert, ascending]
  | cons y ys ih =>
    have hy := List.pairwise_cons.1 h
    unfold setInsert
    split
    · next hlt =>
      refine List.pairwise_cons.2 ⟨fun x hx => ?_, h⟩
      rcases List.mem_cons.1 hx with rfl | hx
      · exact hlt
      · exact hlt.trans (hy.1 x hx)
    · next hge =>
      split
      · exact h
      · next hne =>
        refine List.pairwise_cons.2 ⟨fun x hx => ?_, ih hy.2⟩
        rcases (mem_setInsert x id ys).1 hx with rfl | hx
        · have : x.toNat ≠ y.toNat := fun e => hne (BitVec.eq_of_toNat_eq e)
          omega
        · exact hy.1 x hx

theorem setHas_iff (id : Byte) (u : List Byte) : setHas id u = true ↔ id ∈ u := by
  simp [setHas]

/-! ### Raising an error (R314) -/

@[simp] theorem raise_transient (s : State) : raise .transient s = s.emit (.err .transient) := rfl

@[simp] theorem raise_framingReject (c : RejectCause) (s : State) :
    raise (.framingReject c) s = s.setFr ⟨.scan, []⟩ := rfl

@[simp] theorem raise_dispatchCorruption (s : State) :
    raise .dispatchCorruption s = s.setDpBuf [] := rfl

@[simp] theorem raise_serialization (c : Cmd) (s : State) :
    raise (.serialization c) s = s.emit (.err (.serialization c)) := rfl

@[simp] theorem raise_cmdRange (a b : Int) (s : State) :
    raise (.cmdRange a b) s = s.emit (.err (.cmdRange a b)) := rfl

@[simp] theorem dropRest_eq (s : State) : dropRest s = s.setDpBuf [] := rfl

end Sys2Proof.Machine
end

