-- ==== Sys2Proof/Laws/Framer.lean ====
section
/-! SUPPORT. What the Framer does: its frame, its invariant, chunks, and whole frames (`40_framer.md`). -/

-- One theorem after another: the joined text then keeps few threads at a time.
set_option Elab.async false

namespace Sys2Proof.Machine

/-! ### The frame of a byte step -/

/-- A byte step writes the Framer's registers and nothing else (R184, R277). -/
theorem frameByte_state (b : Byte) (s : State) :
    (frameByte b s).1 = s.setFr (frameByte b s).1.fr := by
  unfold frameByte
  split
  · rfl
  · simp only [byteScanAA]; split
    · rfl
    · split <;> rfl
  · simp only [byteLen]; split <;> rfl
  · simp only [byteBody]; split
    · rfl
    · split <;> rfl

theorem setFr_setFr (s : State) (f g : Framer) : (s.setFr f).setFr g = s.setFr g := rfl
theorem setFr_self (s : State) : s.setFr s.fr = s := rfl

/-- A chunk writes the Framer's registers and nothing else. -/
theorem frameBytes_state (bs : Bytes) (s : State) :
    (frameBytes bs s).1 = s.setFr (frameBytes bs s).1.fr := by
  induction bs generalizing s with
  | nil => rfl
  | cons b bs ih =>
    have h1 := frameByte_state b s
    have h2 := ih (frameByte b s).1
    simp only [frameBytes]
    rw [h2]
    generalize (frameByte b s).1.fr = f at h1
    rw [h1]; rfl

/-- The Framer's registers and its yield depend on its registers and `CFG` alone. -/
theorem frameByte_congr (b : Byte) {s t : State} (hf : s.fr = t.fr) (hc : s.cfg = t.cfg) :
    (frameByte b s).1.fr = (frameByte b t).1.fr ∧ (frameByte b s).2 = (frameByte b t).2 := by
  unfold frameByte
  rw [hf]
  split
  · simp [byteScan, hf]
  · simp only [byteScanAA, hf]; split
    · simp
    · split <;> simp
  · simp only [byteLen, hc]; split <;> simp
  · simp only [byteBody, hc, hf]; split
    · simp
    · split <;> simp

/-! ### Chunks (R138, R140) -/

theorem frameBytes_append (bs cs : Bytes) (s : State) :
    frameBytes (bs ++ cs) s =
      ((frameBytes cs (frameBytes bs s).1).1,
        (frameBytes bs s).2 ++ (frameBytes cs (frameBytes bs s).1).2) := by
  induction bs generalizing s with
  | nil => rfl
  | cons b bs ih => simp [frameBytes, ih]

/-! ### The Framer invariant (R28) and what is yielded (R139) -/

theorem frameByte_framerOk (b : Byte) {s : State} (h : framerOk s.cfg s.fr = true) :
    framerOk s.cfg (frameByte b s).1.fr = true := by
  obtain ⟨⟨st, buf⟩⟩ := s
  cases st
  · simp only [framerOk] at h
    simp only [frameByte, byteScan, State.setFr_fr]
    split <;> simpa [framerOk] using h
  · simp only [framerOk] at h
    simp only [frameByte, byteScanAA]
    split
    · simpa [framerOk] using h
    · split
      · simpa [framerOk] using h
      · simp [framerOk]
  · simp only [frameByte, byteLen]
    split
    · next hl => simpa [framerOk] using hl
    · simp [framerOk]
  · simp only [frameByte, byteBody]
    split
    · next hlt =>
      cases buf with
      | nil => simp [framerOk] at h
      | cons l rest =>
        simp only [framerOk, Bool.and_eq_true, decide_eq_true_eq] at h
        simp only [bufPush, candidateLen, List.length_append, List.length_cons, List.length_nil,
          List.cons_append] at hlt
        simp only [State.setFr_fr, bufPush, List.cons_append, framerOk, Bool.and_eq_true,
          decide_eq_true_eq, List.length_append, List.length_cons, List.length_nil]
        exact ⟨by omega, h.2⟩
    · split <;> simp [framerOk]

/-- What a Framer that meets its invariant yields (R139): a framed body whose length is in range and
which is accepted. -/
theorem frameByte_yield {b : Byte} {s : State} {body : Bytes} (h : framerOk s.cfg s.fr = true)
    (hy : (frameByte b s).2 = some body) :
    ∃ l rest, body = l :: rest ∧ rest.length = l.toNat + 1 ∧ lengthInRange s.cfg l = true ∧
      accepts s.cfg body = true := by
  obtain ⟨⟨st, buf⟩⟩ := s
  cases st <;> simp only [frameByte, reduceCtorEq] at hy
  simp only [byteBody] at hy
  split at hy
  · simp at hy
  · next hge =>
    split at hy
    · next hacc =>
      simp only [Option.some.injEq] at hy
      subst hy
      cases buf with
      | nil => simp [framerOk] at h
      | cons l rest =>
        simp only [framerOk, Bool.and_eq_true, decide_eq_true_eq] at h
        simp only [bufPush, candidateLen, List.length_append, List.length_cons, List.length_nil,
          List.cons_append, Nat.not_lt] at hge
        refine ⟨l, rest ++ [b], rfl, ?_, h.2, hacc⟩
        simp only [List.length_append, List.length_cons, List.length_nil]
        omega
    · simp at hy

theorem frameBytes_framerOk (bs : Bytes) {s : State} (h : framerOk s.cfg s.fr = true) :
    framerOk s.cfg (frameBytes bs s).1.fr = true := by
  induction bs generalizing s with
  | nil => exact h
  | cons b bs ih =>
    have hc : (frameByte b s).1.cfg = s.cfg := by rw [frameByte_state]; rfl
    have := ih (s := (frameByte b s).1) (by rw [hc]; exact frameByte_framerOk b h)
    rwa [hc] at this

theorem frameBytes_yield {bs : Bytes} {s : State} {body : Bytes} (h : framerOk s.cfg s.fr = true)
    (hy : body ∈ (frameBytes bs s).2) :
    ∃ l rest, body = l :: rest ∧ rest.length = l.toNat + 1 ∧ lengthInRange s.cfg l = true ∧
      accepts s.cfg body = true := by
  induction bs generalizing s with
  | nil => simp [frameBytes] at hy
  | cons b bs ih =>
    have hc : (frameByte b s).1.cfg = s.cfg := by rw [frameByte_state]; rfl
    simp only [frameBytes, List.mem_append, Option.mem_toList] at hy
    rcases hy with hy | hy
    · exact frameByte_yield h hy
    · have := ih (s := (frameByte b s).1) (by rw [hc]; exact frameByte_framerOk b h) hy
      rwa [hc] at this

/-! ### Whole frames (R142 to R144) -/

/-- Bytes of a candidate that do not complete it are stored in order (R133). -/
theorem frameBytes_body (bs : Bytes) {s : State} {l : Byte} {r : Bytes}
    (hs : s.fr = ⟨.body, l :: r⟩) (hlen : r.length + bs.length ≤ l.toNat) :
    frameBytes bs s = (s.setFr ⟨.body, l :: (r ++ bs)⟩, []) := by
  induction bs generalizing s r with
  | nil => rw [List.append_nil, ← hs]; rfl
  | cons b bs ih =>
    have h1 : frameByte b s = (s.setFr ⟨.body, l :: (r ++ [b])⟩, none) := by
      simp only [frameByte, hs, byteBody, bufPush, candidateLen, List.cons_append,
        List.length_append, List.length_cons, List.length_nil] at hlen ⊢
      rw [if_pos (by omega)]
    simp only [frameBytes, h1]
    rw [ih (s := s.setFr ⟨.body, l :: (r ++ [b])⟩) (r := r ++ [b]) rfl (by simp at hlen ⊢; omega)]
    simp [setFr_setFr]

/-- The last byte of a candidate settles it (R134, R135). -/
theorem frameByte_last (b : Byte) {s : State} {l : Byte} {r : Bytes}
    (hs : s.fr = ⟨.body, l :: r⟩) (hlen : r.length = l.toNat) :
    frameByte b s = (s.setFr ⟨.scan, []⟩,
      if accepts s.cfg (l :: (r ++ [b])) then some (l :: (r ++ [b])) else none) := by
  simp only [frameByte, hs, byteBody, bufPush, candidateLen, List.cons_append, List.length_append,
    List.length_cons, List.length_nil]
  rw [if_neg (by omega)]
  split <;> rfl

/-- A whole candidate from a Framer that holds no part of another: start sequence, a length in range,
payload and checksum byte. -/
theorem frameBytes_candidate {s : State} {l c : Byte} {p : Bytes}
    (hs : s.fr.state = .scan ∨ s.fr.state = .scanAA) (hp : p.length = l.toNat)
    (hl : lengthInRange s.cfg l = true) :
    frameBytes ([Config.stx0, Config.stx1, l] ++ p ++ [c]) s =
      (s.setFr ⟨.scan, []⟩,
        if accepts s.cfg (l :: (p ++ [c])) then [l :: (p ++ [c])] else []) := by
  have h1 : frameByte Config.stx0 s = (s.setFr ⟨.scanAA, s.fr.buf⟩, none) := by
    rcases hs with hs | hs
    · simp [frameByte, hs, byteScan]
    · simp only [frameByte, hs, byteScanAA]
      rw [if_neg (by decide)]; simp
  have h2 : frameByte Config.stx1 (s.setFr ⟨.scanAA, s.fr.buf⟩) =
      (s.setFr ⟨.len, s.fr.buf⟩, none) := rfl
  have h3 : frameByte l (s.setFr ⟨.len, s.fr.buf⟩) = (s.setFr ⟨.body, [l]⟩, none) := by
    simp [frameByte, byteLen, hl, setFr_setFr]
  have h4 := frameBytes_body p (s := s.setFr ⟨.body, [l]⟩) (l := l) (r := []) rfl
    (by simp; omega)
  have h5 := frameByte_last c (s := s.setFr ⟨.body, l :: p⟩) (l := l) (r := p) rfl hp
  have h6 : frameBytes [Config.stx0, Config.stx1, l] s = (s.setFr ⟨.body, [l]⟩, []) := by
    simp [frameBytes, h1, h2, h3]
  rw [frameBytes_append, frameBytes_append, h6]
  simp only [h4, List.nil_append, setFr_setFr, frameBytes, h5, State.setFr_cfg, List.append_nil]
  split <;> simp [*]

theorem accepts_framedBody (c : Config) (p : Bytes) : accepts c (Spec.framedBody p) = true := by
  have := xor8_closed (BitVec.ofNat 8 p.length :: p)
  simp only [accepts, Spec.framedBody, List.cons_append, List.nil_append] at this ⊢
  rw [this]
  simp

theorem lengthInRange_ofNat {c : Config} {p : Bytes} (h : Spec.lengthOk c p) :
    lengthInRange c (BitVec.ofNat 8 p.length) = true ∧
      p.length = (BitVec.ofNat 8 p.length).toNat := by
  obtain ⟨h1, h2, h3⟩ := h
  have : (BitVec.ofNat 8 p.length).toNat = p.length := by simp; omega
  exact ⟨by simp only [lengthInRange, this]; simp [h1, h2], this.symm⟩

/-- A well-formed frame is yielded whole (R142). -/
theorem frameBytes_wireFrame {s : State} {p : Bytes}
    (hs : s.fr.state = .scan ∨ s.fr.state = .scanAA) (hp : Spec.lengthOk s.cfg p) :
    frameBytes (Spec.wireFrame p) s = (s.setFr ⟨.scan, []⟩, [Spec.framedBody p]) := by
  have hl := lengthInRange_ofNat hp
  have := frameBytes_candidate (c := xor8 (BitVec.ofNat 8 p.length :: p)) hs hl.2 hl.1
  have ha := accepts_framedBody s.cfg p
  simp only [Spec.framedBody, List.cons_append, List.nil_append] at ha
  rw [if_pos ha] at this
  exact this

/-- Back-to-back frames are yielded in order, none lost and none twice (R144). -/
theorem frameBytes_wireFrames {s : State} (ps : List Bytes)
    (hs : s.fr = ⟨.scan, []⟩) (hp : ∀ p ∈ ps, Spec.lengthOk s.cfg p) :
    frameBytes (ps.flatMap Spec.wireFrame) s = (s, ps.map Spec.framedBody) := by
  induction ps with
  | nil => rfl
  | cons p ps ih =>
    have h1 := frameBytes_wireFrame (s := s) (.inl (by rw [hs])) (hp p (by simp))
    rw [List.flatMap_cons, frameBytes_append, h1, ← hs, setFr_self,
      ih (fun q hq => hp q (by simp [hq]))]
    rfl

end Sys2Proof.Machine
end

