-- ==== Sys2Proof/Laws/Dispatcher.lean ====
section
/-! SUPPORT. What the Dispatcher does: the frame of a pass, its loop, the sets and records it leaves (`41_dispatcher.md`). -/

-- One theorem after another: the joined text then keeps few threads at a time.
set_option Elab.async false

namespace Sys2Proof.Machine

/-! ### Selection (R101, R162) -/

theorem regLookup_mem {c : Config} {id : Byte} {e : RegEntry} (h : regLookup c id = some e) :
    e ∈ c.reg ∧ e.id = id := by
  unfold regLookup at h
  exact ⟨List.mem_of_find?_eq_some h, by simpa using List.find?_some h⟩

theorem selectSub_decode {c : Config} {id : Byte} {rest : Bytes} {t : RecType} {i : Byte} {w : Nat}
    (h : selectSub c id rest = .decode t i w) :
    i = id ∧ w ≤ rest.length - Config.csLen ∧
      ∃ e, regLookup c id = some e ∧ e.type = t ∧
        widthOf e.width (rest.take (rest.length - Config.csLen)) = some w := by
  simp only [selectSub] at h
  split at h
  · simp at h
  · next e he =>
    split at h
    · simp at h
    · next w' hw =>
      split at h
      · next hle =>
        simp only [SubOp.decode.injEq] at h
        obtain ⟨h1, h2, h3⟩ := h
        subst h2 h3
        exact ⟨rfl, hle, e, he, h1, hw⟩
      · simp at h

/-- Selection of an entry whose body is there (R101, R165); `tail` ends with the checksum byte. -/
theorem selectSub_fits {c : Config} {e : RegEntry} {body tail : Bytes}
    (he : regLookup c e.id = some e)
    (hw : widthOf e.width (body ++ tail.dropLast) = some body.length) (ht : tail ≠ []) :
    selectSub c e.id (body ++ tail) = .decode e.type e.id body.length := by
  have hl : 0 < tail.length := List.length_pos_iff.2 ht
  have htake : (body ++ tail).take ((body ++ tail).length - Config.csLen) = body ++ tail.dropLast := by
    rw [← List.dropLast_eq_take, List.dropLast_append_of_ne_nil ht]
  simp only [selectSub, he]
  rw [htake, hw]
  exact if_pos (by simp only [List.length_append, Config.csLen]; omega)

/-- What `exec` does with the operation a header id selects is what the Dispatcher performs. -/
theorem exec_subInstr (o : SubOp) (s : State) : exec (subInstr o) s = .next (performSub o s) := by
  cases o with
  | decode t id w => cases t <;> rfl
  | unknown id => rfl
  | trunc id => rfl

/-! ### The frame of a sub-packet step, the loop and a pass (R184) -/

/-- A sub-packet operation writes `dp_buf`, the records and `upd`, nothing else. -/
theorem performSub_state (o : SubOp) (s : State) :
    performSub o s =
      ((s.setDpBuf (performSub o s).dpBuf).setRecs (performSub o s).recs).setUpd
        (performSub o s).upd := by
  cases o with
  | decode t id w =>
    simp only [performSub, decodeRecord]
    split <;> rfl
  | unknown id => rfl
  | trunc id => rfl

theorem subStep_state (s : State) :
    subStep s =
      ((s.setDpBuf (subStep s).dpBuf).setRecs (subStep s).recs).setUpd (subStep s).upd := by
  unfold subStep
  split
  · rfl
  · next id rest _ =>
    have := performSub_state (selectSub s.cfg id rest) (s.setDpBuf rest)
    rw [this]; rfl

theorem passLoop_state (n : Nat) (s : State) :
    passLoop n s =
      ((s.setDpBuf (passLoop n s).dpBuf).setRecs (passLoop n s).recs).setUpd (passLoop n s).upd := by
  induction n generalizing s with
  | zero => rfl
  | succ n ih =>
    unfold passLoop
    split
    · have h1 := subStep_state s
      rw [ih (subStep s)]
      generalize (passLoop n (subStep s)).dpBuf = a
      generalize (passLoop n (subStep s)).recs = b
      generalize (passLoop n (subStep s)).upd = d
      rw [h1]; rfl
    · rfl

@[simp] theorem passLoop_cfg (n : Nat) (s : State) : (passLoop n s).cfg = s.cfg := by
  rw [passLoop_state]; rfl

@[simp] theorem passLoop_trace (n : Nat) (s : State) : (passLoop n s).trace = s.trace := by
  rw [passLoop_state]; rfl

@[simp] theorem subStep_cfg (s : State) : (subStep s).cfg = s.cfg := by
  rw [subStep_state]; rfl

/-- The pulses of a set of ids (R182 step 2). -/
abbrev pulsesOfAll (c : Config) (u : List Byte) : List Output := u.flatMap (pulsesOf c)

/-- The end of a pass writes the odometry registers, the trace, `upd` and the free counter (R182). -/
theorem endOfPass_state (s : State) :
    endOfPass s =
      ((((s.setOdo (endOfPass s).odo).emitAll (pulsesOfAll s.cfg s.upd)).setUpd []).setFree
        (endOfPass s).freeCount) := by
  unfold endOfPass notifyOdometry
  split <;> rfl

theorem endOfPass_odo (s : State) :
    (endOfPass s).odo =
      if coreUpdated s.cfg s.upd then
        odoUpdate s.cfg (coreTimeStamp s) (coreLeftEncoder s) (coreRightEncoder s) s.odo
      else s.odo := by
  unfold endOfPass notifyOdometry
  split <;> rfl

/-- A pass writes `dp_buf`, `upd`, the records, the odometry registers, the trace and the free counter, and
leaves `dp_buf` and `upd` empty (R184). -/
theorem runPass_state (body : Bytes) (s : State) :
    runPass body s =
      { s with
        dpBuf := [], upd := [], recs := (runPass body s).recs, odo := (runPass body s).odo
        trace := (runPass body s).trace, freeCount := (runPass body s).freeCount } := by
  unfold runPass
  rw [endOfPass_state, passLoop_state]
  rfl

@[simp] theorem runPass_cfg (body : Bytes) (s : State) : (runPass body s).cfg = s.cfg := by
  rw [runPass_state]

@[simp] theorem runPass_fr (body : Bytes) (s : State) : (runPass body s).fr = s.fr := by
  rw [runPass_state]

/-- What a pass emits: the pulses of the ids its loop leaves in `upd`. -/
theorem runPass_trace (body : Bytes) (s : State) :
    (runPass body s).trace =
      s.trace ++ pulsesOfAll s.cfg (passLoop (body.drop 1).length (startPass body s)).upd := by
  unfold runPass
  rw [endOfPass_state]
  simp [startPass]

theorem runPass_recs (body : Bytes) (s : State) :
    (runPass body s).recs = (passLoop (body.drop 1).length (startPass body s)).recs := by
  unfold runPass
  rw [endOfPass_state]
  rfl

/-! ### The loop (R161, R184) -/

/-- A sub-packet operation never lengthens `dp_buf`. -/
theorem performSub_length (o : SubOp) (s : State) :
    (performSub o s).dpBuf.length ≤ s.dpBuf.length := by
  cases o with
  | decode t id w =>
    simp only [performSub, decodeRecord]
    split <;> simp [storeRecord, bufPop]
  | unknown id => simp [performSub]
  | trunc id => simp [performSub]

/-- Each sub-packet step takes at least one byte (R184). -/
theorem subStep_length {s : State} (h : s.dpBuf ≠ []) :
    (subStep s).dpBuf.length < s.dpBuf.length := by
  unfold subStep
  split
  · next e => exact absurd e h
  · next id rest e =>
    have := performSub_length (selectSub s.cfg id rest) (s.setDpBuf rest)
    simp only [State.setDpBuf_dpBuf] at this
    rw [e, List.length_cons]
    omega

/-- With fuel for every byte, the loop runs until at most the checksum byte is left (R161). -/
theorem passLoop_ends (n : Nat) {s : State} (h : s.dpBuf.length ≤ n) :
    (passLoop n s).dpBuf.length ≤ Config.csLen := by
  induction n generalizing s with
  | zero => simp only [passLoop]; omega
  | succ n ih =>
    unfold passLoop
    split
    · next hlt =>
      have hne : s.dpBuf ≠ [] := by
        intro e; rw [e] at hlt; simp at hlt
      have := subStep_length hne
      exact ih (by omega)
    · omega

/-- More fuel than bytes changes nothing: the loop is the one of R161. -/
theorem passLoop_fuel (n m : Nat) {s : State} (hn : s.dpBuf.length ≤ n) (hm : s.dpBuf.length ≤ m) :
    passLoop n s = passLoop m s := by
  induction n generalizing s m with
  | zero =>
    have : s.dpBuf.length = 0 := by omega
    cases m with
    | zero => rfl
    | succ m => simp [passLoop, this]
  | succ n ih =>
    cases m with
    | zero =>
      have : s.dpBuf.length = 0 := by omega
      simp [passLoop, this]
    | succ m =>
      simp only [passLoop]
      split
      · next hlt =>
        have hne : s.dpBuf ≠ [] := by
          intro e; rw [e] at hlt; simp at hlt
        have := subStep_length hne
        exact ih m (by omega) (by omega)
      · rfl

/-- The loop is some number of sub-packet steps, each taken while more than the checksum byte is left
(R161). -/
theorem passLoop_iterate (n : Nat) (s : State) :
    ∃ k, passLoop n s = subStep^[k] s ∧ ∀ j < k, Config.csLen < (subStep^[j] s).dpBuf.length := by
  induction n generalizing s with
  | zero => exact ⟨0, rfl, by simp⟩
  | succ n ih =>
    unfold passLoop
    split
    · next hlt =>
      obtain ⟨k, hk, hj⟩ := ih (subStep s)
      refine ⟨k + 1, by rw [hk]; rfl, fun j hjk => ?_⟩
      cases j with
      | zero => exact hlt
      | succ j => exact hj j (by omega)
    · exact ⟨0, rfl, by simp⟩

/-! ### What the loop keeps -/

/-- Anything a decode of a selected sub-packet keeps, and dropping the rest keeps, the loop keeps. -/
theorem passLoop_keeps (P : State → Prop)
    (hdrop : ∀ s, P s → ∀ b, P (s.setDpBuf b))
    (hstore : ∀ s id e w, P s → regLookup s.cfg id = some e → (∀ n, e.width = .fixed n → w = n) →
      w ≤ s.dpBuf.length → P (storeRecord e.type id w s))
    (n : Nat) {s : State} (h : P s) : P (passLoop n s) := by
  have hsub : ∀ s, P s → P (subStep s) := by
    intro s hs
    unfold subStep
    split
    · exact hs
    · next id rest _ =>
      cases ho : selectSub s.cfg id rest with
      | unknown i => exact hdrop _ (hdrop _ hs _) _
      | trunc i => exact hdrop _ (hdrop _ hs _) _
      | decode t i w =>
        obtain ⟨rfl, hle, e, he, rfl, hw⟩ := selectSub_decode ho
        simp only [performSub, decodeRecord]
        split
        · next hfit =>
          refine hstore _ _ e w (hdrop _ hs _) he (fun n hn => ?_) (by simp at hfit ⊢; omega)
          rw [hn] at hw
          simpa [widthOf] using hw.symm
        · exact hdrop _ (hdrop _ hs _) _
  induction n generalizing s with
  | zero => exact h
  | succ n ih =>
    unfold passLoop
    split
    · exact ih (hsub s h)
    · exact h

/-- The loop leaves `upd` ascending. -/
theorem passLoop_ascending (n : Nat) {s : State} (h : ascending s.upd) :
    ascending (passLoop n s).upd :=
  passLoop_keeps (fun s => ascending s.upd) (fun _ h _ => h)
    (fun _ id _ _ h _ _ _ => setInsert_ascending id h) n h

/-- Every id the loop leaves in `upd` is in the Registry and its record is written. -/
theorem passLoop_updated (n : Nat) {s : State} (h : s.upd = []) :
    ∀ id ∈ (passLoop n s).upd, ∃ e, regLookup s.cfg id = some e ∧
      (recGet (passLoop n s).recs e.type).isSome := by
  have := passLoop_keeps
    (fun t => t.cfg = s.cfg ∧ ∀ id ∈ t.upd, ∃ e, regLookup s.cfg id = some e ∧
      (recGet t.recs e.type).isSome)
    (fun _ h _ => h)
    (fun t id e w h he _ _ => by
      refine ⟨h.1, fun i hi => ?_⟩
      rcases (mem_setInsert i id t.upd).1 hi with rfl | hi
      · exact ⟨e, by rw [← h.1]; exact he, by simp [storeRecord]⟩
      · obtain ⟨e', he', hs'⟩ := h.2 i hi
        exact ⟨e', he', recGet_recSet_isSome _ _ _ _ hs'⟩)
    n (s := s) ⟨rfl, by simp [h]⟩
  exact this.2

/-- A record the loop writes belongs to an id the loop leaves in `upd` (R163). -/
theorem passLoop_writes (n : Nat) (s : State) (t : RecType)
    (h : recGet (passLoop n s).recs t ≠ recGet s.recs t) :
    ∃ id e, id ∈ (passLoop n s).upd ∧ regLookup s.cfg id = some e ∧ e.type = t := by
  have := passLoop_keeps
    (fun u => u.cfg = s.cfg ∧ (recGet u.recs t ≠ recGet s.recs t →
      ∃ id e, id ∈ u.upd ∧ regLookup s.cfg id = some e ∧ e.type = t))
    (fun _ h _ => h)
    (fun u id e w h he _ _ => by
      refine ⟨h.1, fun hne => ?_⟩
      by_cases ht : e.type = t
      · exact ⟨id, e, by simp [storeRecord], by rw [← h.1]; exact he, ht⟩
      · have h' : recGet u.recs t ≠ recGet s.recs t := by
          simpa [storeRecord, recGet_recSet_other _ (Ne.symm ht)] using hne
        obtain ⟨i, e', hi, h2, h3⟩ := h.2 h'
        exact ⟨i, e', by simp [storeRecord, hi], h2, h3⟩)
    n (s := s) ⟨rfl, fun h => absurd rfl h⟩
  exact this.2 h

/-- A written record stays written. -/
theorem passLoop_written (n : Nat) (s : State) (t : RecType) (h : (recGet s.recs t).isSome) :
    (recGet (passLoop n s).recs t).isSome :=
  passLoop_keeps (fun u => (recGet u.recs t).isSome) (fun _ h _ => h)
    (fun _ _ _ _ h _ _ _ => recGet_recSet_isSome _ _ _ _ h) n h

/-- The loop keeps the widths of the records (R23, R100), in a Registry that names each type once. -/
theorem passLoop_recordsOk (n : Nat) {s : State} (hv : (s.cfg.reg.map (·.type)).Nodup)
    (h : recordsOk s.cfg s.recs = true) : recordsOk s.cfg (passLoop n s).recs = true := by
  have := passLoop_keeps (fun u => u.cfg = s.cfg ∧ recordsOk s.cfg u.recs = true)
    (fun _ h _ => h)
    (fun u id e w h he hw hle => by
      refine ⟨h.1, ?_⟩
      have hr := h.2
      simp only [recordsOk, List.all_eq_true] at hr ⊢
      intro f hf
      have hf' := hr f hf
      rw [h.1] at he
      have hmem := (regLookup_mem he).1
      simp only [storeRecord, State.setUpd_recs, State.setRecs_recs]
      by_cases ht : f.type = e.type
      · have : f = e := List.inj_on_of_nodup_map hv hf hmem ht
        subst this
        rw [recGet_recSet_same]
        cases hwid : f.width with
        | fixed m =>
          have := hw m hwid
          simp [bufPop]
          omega
        | byRest g => rfl
      · rw [recGet_recSet_other _ ht]
        exact hf')
    n (s := s) ⟨rfl, h⟩
  exact this.2

/-! ### Whole payloads (R94, R163, R180) -/

/-- One step over a sub-packet the Registry can decode (R162, R163, R165): the width may be read from the bytes
that follow the id up to the checksum byte, the last of `tail`. -/
theorem subStep_subpacket {s : State} {e : RegEntry} {body tail : Bytes}
    (he : regLookup s.cfg e.id = some e)
    (hw : widthOf e.width (body ++ tail.dropLast) = some body.length)
    (hs : s.dpBuf = e.id :: (body ++ tail)) (ht : tail ≠ []) :
    subStep s =
      ((s.setDpBuf tail).setRecs (recSet s.recs e.type body)).setUpd (setInsert e.id s.upd) := by
  have hl : 0 < tail.length := List.length_pos_iff.2 ht
  have hfit : body.length + Config.csLen ≤ (body ++ tail).length := by
    simp only [List.length_append, Config.csLen]; omega
  have hdec : decodeRecord e.type e.id body.length (s.setDpBuf (body ++ tail)) =
      storeRecord e.type e.id body.length (s.setDpBuf (body ++ tail)) := if_pos hfit
  unfold subStep
  rw [hs]
  simp only [selectSub_fits he hw ht, performSub, hdec]
  simp [storeRecord, bufPop]
  rfl

/-- The loop over sub-packets the Registry can decode: each is stored in turn, whatever follows (R94, R164). -/
theorem passLoop_payload (ps : List (RegEntry × Bytes)) {s : State} {tail : Bytes} (n : Nat)
    (hok : Spec.payloadOk s.cfg ps tail.dropLast)
    (hs : s.dpBuf = Spec.payloadOf ps ++ tail) (ht : tail ≠ []) (hn : s.dpBuf.length ≤ n) :
    passLoop n s =
      passLoop tail.length
        (((s.setDpBuf tail).setRecs (Spec.recsAfter ps s.recs)).setUpd (Spec.updAfter ps s.upd)) := by
  induction ps generalizing s n with
  | nil =>
    simp only [Spec.payloadOf, List.nil_append] at hs
    rw [passLoop_fuel n tail.length hn (by rw [hs])]
    congr 1
    simp [Spec.recsAfter, Spec.updAfter, ← hs]
    rfl
  | cons p ps ih =>
    have hs' : s.dpBuf = p.1.id :: (p.2 ++ (Spec.payloadOf ps ++ tail)) := by
      simpa [Spec.payloadOf] using hs
    obtain ⟨he, hw, hrest⟩ := hok
    have hstep := subStep_subpacket he
      (by rwa [List.dropLast_append_of_ne_nil ht]) hs' (by simp [ht])
    have hl : 0 < tail.length := List.length_pos_iff.2 ht
    cases n with
    | zero => rw [hs'] at hn; simp at hn
    | succ n =>
      have hlt : Config.csLen < s.dpBuf.length := by
        rw [hs']; simp only [List.length_cons, List.length_append, Config.csLen]; omega
      rw [passLoop, if_pos hlt, ih (s := subStep s) (n := n)]
      · rw [hstep]; rfl
      · rw [subStep_cfg]
        exact hrest
      · rw [hstep]; rfl
      · have := subStep_length (s := s) (by rw [hs']; simp)
        omega

end Sys2Proof.Machine
end

