-- ==== Sys2Proof/Laws/Encoder.lean ====
section
/-! SUPPORT. What the Command Encoder's parts give: rounding, and reading a frame back (`43_command_encoder.md`). -/

-- One theorem after another: the joined text then keeps few threads at a time.
set_option Elab.async false

namespace Sys2Proof.Machine

/-- The floor of a number and a half is within a half of it (R11). -/
theorem floor_half (q : Rat) :
    (((q + 1 / 2).floor : Int) : Rat) ≤ q + 1 / 2 ∧
      q + 1 / 2 < (((q + 1 / 2).floor : Int) : Rat) + 1 := by
  have h1 := Rat.floor_le (a := q + 1 / 2)
  have h2 := Rat.lt_floor (x := q + 1 / 2)
  exact ⟨h1, by linarith⟩

/-- The larger of two numbers (R245). -/
theorem numMax_eq (a b : Rat) : numMax a b = max a b := rfl

/-- A frame read back gives the operation of its payload (R90, R91). -/
theorem decodeCommand_frameOf {p : Bytes} (h : p.length ≤ 255) :
    decodeCommand (frameOf p) = .ok (commandOf p) := by
  have h1 : (BitVec.ofNat 8 p.length).toNat = p.length := by simp; omega
  have hx := xor8_closed (BitVec.ofNat 8 p.length :: p)
  simp only [frameOf, List.cons_append, List.nil_append, decodeCommand] at hx ⊢
  rw [if_neg (by simp), if_neg (by rw [h1]; simp), if_neg (by simpa using hx), h1]
  simp

end Sys2Proof.Machine
end

