-- ==== Sys2Proof/Laws/Engine.lean ====
section
/-! SUPPORT. What the Engine Loop does: what a pass depends on, the frame of an iteration, its outputs, and stepping against batching (`44_engine_loop.md`). -/

-- One theorem after another: the joined text then keeps few threads at a time.
set_option Elab.async false

namespace Sys2Proof.Machine

/-! ### What a pass depends on -/

/-- Two states agree on everything a pass reads. -/
structure SameDisp (s t : State) : Prop where
  dpBuf : s.dpBuf = t.dpBuf
  upd : s.upd = t.upd
  recs : s.recs = t.recs
  odo : s.odo = t.odo
  cfg : s.cfg = t.cfg
  freeCount : s.freeCount = t.freeCount

theorem SameDisp.setDpBuf {s t : State} (h : SameDisp s t) (b : Bytes) :
    SameDisp (s.setDpBuf b) (t.setDpBuf b) := ⟨rfl, h.2, h.3, h.4, h.5, h.6⟩

theorem SameDisp.setUpd {s t : State} (h : SameDisp s t) (u : List Byte) :
    SameDisp (s.setUpd u) (t.setUpd u) := ⟨h.1, rfl, h.3, h.4, h.5, h.6⟩

theorem SameDisp.storeRecord {s t : State} (h : SameDisp s t) (r : RecType) (id : Byte) (w : Nat) :
    SameDisp (storeRecord r id w s) (storeRecord r id w t) := by
  unfold Machine.storeRecord
  exact ⟨by simp [h.dpBuf], by simp [h.upd], by simp [h.dpBuf, h.recs], h.4, h.5, h.6⟩

theorem SameDisp.performSub {s t : State} (h : SameDisp s t) (o : SubOp) :
    SameDisp (performSub o s) (performSub o t) := by
  cases o with
  | decode r id w =>
    simp only [Machine.performSub, decodeRecord, h.dpBuf]
    by_cases hc : w + Config.csLen ≤ t.dpBuf.length
    · simpa only [if_pos hc] using h.storeRecord r id w
    · simp only [if_neg hc]; exact h.setDpBuf []
  | unknown id => exact h.setDpBuf []
  | trunc id => exact h.setDpBuf []

theorem SameDisp.subStep {s t : State} (h : SameDisp s t) : SameDisp (subStep s) (subStep t) := by
  unfold Machine.subStep
  rw [h.dpBuf, h.cfg]
  cases t.dpBuf with
  | nil => exact h
  | cons id rest => exact (h.setDpBuf rest).performSub _

theorem SameDisp.passLoop (n : Nat) {s t : State} (h : SameDisp s t) :
    SameDisp (passLoop n s) (passLoop n t) := by
  induction n generalizing s t with
  | zero => exact h
  | succ n ih =>
    simp only [Machine.passLoop, h.dpBuf]
    by_cases hc : Config.csLen < t.dpBuf.length
    · simpa only [if_pos hc] using ih h.subStep
    · simpa only [if_neg hc] using h

theorem SameDisp.endOfPass {s t : State} (h : SameDisp s t) :
    SameDisp (endOfPass s) (endOfPass t) := by
  obtain ⟨h1, h2, h3, h4, h5, h6⟩ := h
  unfold Machine.endOfPass notifyOdometry
  simp only [h5, h2]
  by_cases hc : coreUpdated t.cfg t.upd = true
  · simp only [if_pos hc]
    refine ⟨h1, rfl, h3, ?_, h5, ?_⟩
    · simp [updateOdometry, coreTimeStamp, coreLeftEncoder, coreRightEncoder, h3, h4, h5, h6]
    · simp [h6]
  · simp only [if_neg hc]
    exact ⟨h1, rfl, h3, h4, h5, h6⟩

/-- What a pass leaves, and what it emits, depends on what it reads alone. -/
theorem runPass_congr (body : Bytes) {s t : State} (hr : s.recs = t.recs) (ho : s.odo = t.odo)
    (hc : s.cfg = t.cfg) (hf : s.freeCount = t.freeCount) :
    SameDisp (runPass body s) (runPass body t) ∧
      ∃ new, (runPass body s).trace = s.trace ++ new ∧ (runPass body t).trace = t.trace ++ new := by
  have h0 : SameDisp (startPass body s) (startPass body t) := ⟨rfl, rfl, hr, ho, hc, hf⟩
  have h1 := h0.passLoop (body.drop 1).length
  refine ⟨(h1.setDpBuf []).endOfPass, _, runPass_trace body s, ?_⟩
  rw [runPass_trace, h1.upd, hc]

/-! ### Passes in order -/

/-- Dispatch framed bodies one after another. -/
def runPasses : List Bytes → State → State
  | [], s => s
  | b :: bs, s => runPasses bs (runPass b s)

theorem runPasses_append (xs ys : List Bytes) (s : State) :
    runPasses (xs ++ ys) s = runPasses ys (runPasses xs s) := by
  induction xs generalizing s with
  | nil => rfl
  | cons x xs ih => exact ih _

/-- The frame of passes in order. -/
theorem runPasses_state (xs : List Bytes) (s : State) :
    runPasses xs s =
      { s with
        dpBuf := (runPasses xs s).dpBuf, upd := (runPasses xs s).upd
        recs := (runPasses xs s).recs, odo := (runPasses xs s).odo
        trace := (runPasses xs s).trace, freeCount := (runPasses xs s).freeCount } := by
  induction xs generalizing s with
  | nil => rfl
  | cons x xs ih =>
    simp only [runPasses]
    have h1 := runPass_state x s
    rw [ih (runPass x s)]
    generalize runPasses xs (runPass x s) = t
    rw [h1]

/-- Passes leave the dispatcher's buffer and set empty if they were. -/
theorem runPasses_empty (xs : List Bytes) {s : State} (h : s.dpBuf = []) (hu : s.upd = []) :
    (runPasses xs s).dpBuf = [] ∧ (runPasses xs s).upd = [] := by
  induction xs generalizing s with
  | nil => exact ⟨h, hu⟩
  | cons x xs ih =>
    refine ih ?_ ?_ <;> rw [runPass_state]

theorem runPass_setFr (body : Bytes) (f : Framer) (s : State) :
    runPass body (s.setFr f) = (runPass body s).setFr f := by
  obtain ⟨h, new, h1, h2⟩ := runPass_congr body (s := s.setFr f) (t := s) rfl rfl rfl rfl
  rw [runPass_state body (s.setFr f), runPass_state body s, h.recs, h.odo, h.freeCount, h1, h2]
  rfl

theorem runPasses_setFr (xs : List Bytes) (f : Framer) (s : State) :
    runPasses xs (s.setFr f) = (runPasses xs s).setFr f := by
  induction xs generalizing s with
  | nil => rfl
  | cons x xs ih => simp only [runPasses, runPass_setFr, ih]

@[simp] theorem runPasses_fr (xs : List Bytes) (s : State) : (runPasses xs s).fr = s.fr := by
  induction xs generalizing s with
  | nil => rfl
  | cons x xs ih => simp [runPasses, ih]

@[simp] theorem runPasses_cfg (xs : List Bytes) (s : State) : (runPasses xs s).cfg = s.cfg := by
  induction xs generalizing s with
  | nil => rfl
  | cons x xs ih => simp [runPasses, ih]

/-! ### Feeding bytes -/

theorem frameBytes_congr (bs : Bytes) {s t : State} (hf : s.fr = t.fr) (hc : s.cfg = t.cfg) :
    (frameBytes bs s).1.fr = (frameBytes bs t).1.fr ∧
      (frameBytes bs s).2 = (frameBytes bs t).2 := by
  induction bs generalizing s t with
  | nil => exact ⟨hf, rfl⟩
  | cons b bs ih =>
    have hb := frameByte_congr b hf hc
    have h3 : (frameByte b s).1.cfg = (frameByte b t).1.cfg := by
      rw [frameByte_state, frameByte_state b t]; exact hc
    have := ih hb.1 h3
    simp only [frameBytes]
    exact ⟨this.1, by rw [hb.2, this.2]⟩

/-- A chunk does not read the result register. -/
theorem frameBytes_setResult (bs : Bytes) (r : Result) (s : State) :
    frameBytes bs (s.setResult r) = ((frameBytes bs s).1.setResult r, (frameBytes bs s).2) := by
  have h := frameBytes_congr bs (s := s.setResult r) (t := s) rfl rfl
  refine Prod.ext ?_ h.2
  rw [frameBytes_state, h.1, frameBytes_state bs s]
  rfl

/-- A chunk after passes is the passes after the chunk: the Framer and the Dispatcher do not touch each
other's registers (R277). -/
theorem frameBytes_runPasses (bs : Bytes) (xs : List Bytes) (s : State) :
    frameBytes bs (runPasses xs s) = (runPasses xs (frameBytes bs s).1, (frameBytes bs s).2) := by
  have h := frameBytes_congr bs (s := runPasses xs s) (t := s) (by simp) (by simp)
  refine Prod.ext ?_ h.2
  rw [frameBytes_state, h.1, ← runPasses_setFr, ← frameBytes_state]

theorem feedByte_eq (b : Byte) (s : State) :
    feedByte b s = runPasses (frameByte b s).2.toList (frameByte b s).1 := by
  unfold feedByte
  simp only
  cases (frameByte b s).2 <;> rfl

/-- Dispatching each body at the moment it is yielded is dispatching all of them after the last byte
(R277). -/
theorem feedBytes_eq (bs : Bytes) (s : State) :
    feedBytes bs s = runPasses (frameBytes bs s).2 (frameBytes bs s).1 := by
  induction bs generalizing s with
  | nil => rfl
  | cons b bs ih =>
    simp only [feedBytes, frameBytes, ih, feedByte_eq, frameBytes_runPasses, runPasses_append]

/-- What passes in order emit are pulses. -/
theorem runPasses_trace (xs : List Bytes) (s : State) :
    ∃ new, (runPasses xs s).trace = s.trace ++ new ∧ ∀ o ∈ new, ∃ p, o = Output.notify p := by
  induction xs generalizing s with
  | nil => exact ⟨[], by simp [runPasses], by simp⟩
  | cons x xs ih =>
    obtain ⟨new, h1, h2⟩ := ih (runPass x s)
    refine ⟨_, by rw [runPasses, h1, runPass_trace, List.append_assoc], fun o ho => ?_⟩
    rcases List.mem_append.1 ho with ho | ho
    · obtain ⟨id, _, ho⟩ := List.mem_flatMap.1 ho
      unfold pulsesOf at ho
      split at ho
      · simp at ho
      · next e _ =>
        rcases List.mem_cons.1 ho with rfl | ho
        · exact ⟨_, rfl⟩
        · split at ho
          · exact ⟨_, List.mem_singleton.1 ho⟩
          · simp at ho
    · exact h2 o ho

/-- A pass that changes a record notifies its type (R163, R182). -/
theorem runPass_notifies (body : Bytes) (s : State) (t : RecType)
    (h : recGet (runPass body s).recs t ≠ recGet s.recs t) :
    ∃ new, (runPass body s).trace = s.trace ++ new ∧ Output.notify (.record t) ∈ new := by
  have hr : (runPass body s).recs = (passLoop (body.drop 1).length (startPass body s)).recs := by
    unfold runPass
    rw [endOfPass_state]
    rfl
  rw [hr] at h
  obtain ⟨id, e, hid, he, rfl⟩ := passLoop_writes _ (startPass body s) t h
  refine ⟨_, runPass_trace body s, List.mem_flatMap.2 ⟨id, hid, ?_⟩⟩
  have he' : regLookup s.cfg id = some e := he
  simp [pulsesOf, he']

/-- Passes that change a record notify its type. -/
theorem runPasses_notifies (xs : List Bytes) (s : State) (t : RecType)
    (h : recGet (runPasses xs s).recs t ≠ recGet s.recs t) :
    ∃ new, (runPasses xs s).trace = s.trace ++ new ∧ Output.notify (.record t) ∈ new := by
  induction xs generalizing s with
  | nil => exact absurd rfl h
  | cons x xs ih =>
    by_cases hx : recGet (runPass x s).recs t = recGet s.recs t
    · rw [← hx] at h
      obtain ⟨new, h1, h2⟩ := ih (runPass x s) h
      exact ⟨pulsesOfAll s.cfg (passLoop (x.drop 1).length (startPass x s)).upd ++ new,
        by rw [runPasses, h1, runPass_trace, List.append_assoc], List.mem_append_right _ h2⟩
    · obtain ⟨a, ha, hm⟩ := runPass_notifies x s t hx
      obtain ⟨new, h1, -⟩ := runPasses_trace xs (runPass x s)
      exact ⟨a ++ new, by rw [runPasses, h1, ha, List.append_assoc], List.mem_append_left _ hm⟩

/-- The state an iteration feeds its bytes to: an empty read has been reported (R276). -/
theorem reportEmptyRead_state (bytes : Bytes) (s : State) :
    reportEmptyRead bytes s =
      s.emitAll (if bytes = [] then [.err .transient] else []) := by
  cases bytes with
  | nil => rfl
  | cons b bs => simp [reportEmptyRead, State.emitAll]

/-- The frame of an iteration: it writes the Framer's registers, the Dispatcher's, the records, the odometry
registers, the trace and the free counter. -/
theorem runIteration_state (bytes : Bytes) (s : State) :
    runIteration bytes s =
      { s with
        fr := (runIteration bytes s).fr, dpBuf := (runIteration bytes s).dpBuf
        upd := (runIteration bytes s).upd, recs := (runIteration bytes s).recs
        odo := (runIteration bytes s).odo, trace := (runIteration bytes s).trace
        freeCount := (runIteration bytes s).freeCount } := by
  have h1 := reportEmptyRead_state bytes s
  unfold runIteration sendCommand
  rw [feedBytes_eq, h1, frameBytes_state, runPasses_setFr, runPasses_state]
  rfl

/-- An iteration's outputs (R275, R276, R279): the report of an empty read, pulses, then one frame. -/
theorem runIteration_trace (bytes : Bytes) (s : State) :
    ∃ pulses, (∀ o ∈ pulses, ∃ p, o = Output.notify p) ∧
      (runIteration bytes s).trace =
        s.trace ++ (if bytes = [] then [.err .transient] else []) ++ pulses ++
          [.tx (outboundFrame s)] := by
  unfold runIteration sendCommand
  rw [feedBytes_eq, reportEmptyRead_state]
  generalize hos : (if bytes = [] then [Output.err .transient] else []) = os
  obtain ⟨new, h1, h2⟩ := runPasses_trace (frameBytes bytes (s.emitAll os)).2
    (frameBytes bytes (s.emitAll os)).1
  refine ⟨new, h2, ?_⟩
  rw [State.emit_trace, h1, frameBytes_state]
  congr 2
  rw [runPasses_setFr, runPasses_state]
  rfl

/-- `ITER` away from `Idle` is an iteration (R274, R275). -/
theorem execIter_of_ne_idle (bytes : Bytes) {s : State} (h : s.enState ≠ .idle) :
    execIter bytes s = .next (runIteration bytes s) := by
  unfold execIter
  split
  · next e => exact absurd e h
  · rfl
  · rfl

/-- The frame the send step transmits, by cases on `Running` (R279). -/
theorem outboundFrame_eq (s : State) :
    outboundFrame s = if s.enState = .running then velFrame s.cmd.speed s.cmd.radius else zeroFrame := by
  unfold outboundFrame
  split
  · next e => rw [if_pos e]
  · next e => rw [if_neg e]

end Sys2Proof.Machine
end

