-- ==== Sys2Proof/Laws/Numerals.lean ====
section
/-! SUPPORT. Reading back what the stimulus lines write: digits, bytes, integers, decimals (R116). -/

-- One theorem after another: the joined text then keeps few threads at a time.
set_option Elab.async false

namespace Sys2Proof

open Machine

/-! ### Digits -/

theorem idxOf_digitChar : ∀ n < 16, hexDigits.idxOf (digitChar n) = n := by decide +kernel

theorem readDigit_digitChar {base n : Nat} (h : n < base) (hb : base ≤ 16) :
    readDigit base (digitChar n) = some n := by
  simp only [readDigit, idxOf_digitChar n (by omega)]
  rw [if_pos h]

/-- A decimal digit's character. -/
def isDigitChar (ch : Char) : Prop := ∃ n < 10, ch = digitChar n

theorem isDigitChar_digitChar {n : Nat} (h : n < 10) : isDigitChar (digitChar n) := ⟨n, h, rfl⟩

theorem digitChar_ne : ∀ n < 16, digitChar n ≠ '-' ∧ digitChar n ≠ '.' ∧ digitChar n ≠ ' ' ∧
    (digitChar n).toNat < 256 := by decide +kernel

theorem isDigitChar.ne {ch : Char} (h : isDigitChar ch) :
    ch ≠ '-' ∧ ch ≠ '.' ∧ ch ≠ ' ' ∧ ch.toNat < 256 := by
  obtain ⟨n, hn, rfl⟩ := h
  exact digitChar_ne n (by omega)

/-! ### Bytes -/

@[simp] theorem readByte_showByte (b : Byte) : readByte (showByte b) = some b := by
  have hb := b.isLt
  simp only [readByte, showByte, readDigit_digitChar (show b.toNat / 16 < 16 by omega) le_rfl,
    readDigit_digitChar (show b.toNat % 16 < 16 by omega) le_rfl, Option.some.injEq]
  apply BitVec.eq_of_toNat_eq
  simp only [BitVec.toNat_ofNat]
  omega

@[simp] theorem readBytes_map_showByte (bs : Bytes) : readBytes (bs.map showByte) = some bs := by
  induction bs with
  | nil => rfl
  | cons b bs ih => simp [readBytes, ih]

/-! ### Numbers -/

theorem readNatFrom_showNatInto (fuel n : Nat) (h : n < fuel) :
    ∃ k, ∀ a acc, readNatFrom a (showNatInto fuel n acc) = readNatFrom (a * 10 ^ k + n) acc := by
  induction fuel generalizing n with
  | zero => omega
  | succ fuel ih =>
    by_cases hn : n < 10
    · refine ⟨1, fun a acc => ?_⟩
      simp only [showNatInto, if_pos hn, readNatFrom, readDigit_digitChar hn (by omega)]
      congr 1; omega
    · obtain ⟨k, hk⟩ := ih (n / 10) (by omega)
      refine ⟨k + 1, fun a acc => ?_⟩
      simp only [showNatInto, if_neg hn, hk, readNatFrom,
        readDigit_digitChar (show n % 10 < 10 by omega) (by omega)]
      congr 1
      rw [Nat.pow_succ, ← Nat.mul_assoc]
      have := Nat.div_add_mod n 10
      omega

theorem showNatInto_digits (fuel n : Nat) (acc : List Char) (h : ∀ ch ∈ acc, isDigitChar ch) :
    ∀ ch ∈ showNatInto fuel n acc, isDigitChar ch := by
  induction fuel generalizing n acc with
  | zero => exact h
  | succ fuel ih =>
    unfold showNatInto
    split
    · next hn =>
      intro ch hc
      rcases List.mem_cons.1 hc with rfl | hc
      · exact isDigitChar_digitChar hn
      · exact h ch hc
    · refine ih _ _ fun ch hc => ?_
      rcases List.mem_cons.1 hc with rfl | hc
      · exact isDigitChar_digitChar (by omega)
      · exact h ch hc

theorem showNatInto_ne_nil (fuel n : Nat) (acc : List Char) (h : fuel ≠ 0 ∨ acc ≠ []) :
    showNatInto fuel n acc ≠ [] := by
  induction fuel generalizing n acc with
  | zero => simpa [showNatInto] using h
  | succ fuel ih =>
    unfold showNatInto
    split
    · simp
    · exact ih _ _ (.inr (by simp))

theorem showNat_digits (n : Nat) : ∀ ch ∈ showNat n, isDigitChar ch :=
  showNatInto_digits _ _ _ (by simp)

theorem showNat_ne_nil (n : Nat) : showNat n ≠ [] := showNatInto_ne_nil _ _ _ (by simp)

theorem readNat_of_ne_nil {cs : List Char} (h : cs ≠ []) : readNat cs = readNatFrom 0 cs := by
  cases cs with
  | nil => exact absurd rfl h
  | cons c cs => rfl

@[simp] theorem readNat_showNat (n : Nat) : readNat (showNat n) = some n := by
  obtain ⟨k, hk⟩ := readNatFrom_showNatInto (n + 1) n (by omega)
  rw [readNat_of_ne_nil (showNat_ne_nil n), showNat, hk]
  simp [readNatFrom]

theorem readInt_of_digits {cs : List Char} (h : ∀ ch ∈ cs, isDigitChar ch) :
    readInt cs = (readNat cs).map (fun n => (n : Int)) := by
  unfold readInt
  split
  · next cs => exact absurd rfl (h '-' (by simp)).ne.1
  · cases readNat cs <;> rfl

@[simp] theorem readInt_showInt (i : Int) : readInt (showInt i) = some i := by
  unfold showInt
  split
  · simp only [readInt, readNat_showNat, Option.some.injEq]; omega
  · rw [readInt_of_digits (showNat_digits _), readNat_showNat]
    exact congrArg some (show ((i.natAbs : Nat) : Int) = i by omega)

@[simp] theorem readI16_showInt (v : Word16) : readI16 (showInt v.toInt) = some v := by
  have h1 := BitVec.toInt_lt (x := v)
  have h2 := BitVec.le_toInt (x := v)
  have hf : fitsI16 v.toInt = true := by
    simp only [fitsI16, Bool.and_eq_true, decide_eq_true_eq]
    omega
  simp only [readI16, readInt_showInt, hf, if_true, toI16, BitVec.ofInt_toInt]

@[simp] theorem readU16_showNat (v : Word16) : readU16 (showNat v.toNat) = some v := by
  simp [readU16, v.isLt]

/-! ### Decimals -/

theorem decimalPlaces_spec (q : Rat) (fuel : Nat) (h : decimalWithin q fuel = true) :
    (q * 10 ^ decimalPlaces q fuel).den = 1 := by
  induction fuel generalizing q with
  | zero => simpa [decimalWithin, decimalPlaces] using h
  | succ fuel ih =>
    unfold decimalWithin at h
    unfold decimalPlaces
    by_cases hd : q.den = 1
    · simp [hd]
    · have hne : (q.den == 1) = false := by simpa using hd
      rw [hne, Bool.false_or] at h
      rw [hne]
      simp only [Bool.false_eq_true, if_false]
      have := ih _ h
      rwa [pow_succ', ← mul_assoc]

theorem readNatFrom_zeros (n : Nat) (cs : List Char) :
    readNatFrom 0 (List.replicate n '0' ++ cs) = readNatFrom 0 cs := by
  induction n with
  | zero => rfl
  | succ n ih =>
    have h0 : readDigit 10 '0' = some 0 := by decide +kernel
    simp only [List.replicate_succ, List.cons_append, readNatFrom, h0]
    exact ih

theorem padLeft_digits (n : Nat) {cs : List Char} (h : ∀ ch ∈ cs, isDigitChar ch) :
    ∀ ch ∈ padLeft n cs, isDigitChar ch := by
  intro ch hc
  rcases List.mem_append.1 hc with hc | hc
  · rw [(List.mem_replicate.1 hc).2]
    exact ⟨0, by omega, by decide +kernel⟩
  · exact h ch hc

theorem padLeft_length (n : Nat) (cs : List Char) : n ≤ (padLeft n cs).length := by
  simp only [padLeft, List.length_append, List.length_replicate]; omega

/-- Reading digits after a number multiplies it by ten for each digit. -/
theorem readNatFrom_append {cs ds : List Char} {a x : Nat} (h : readNatFrom a cs = some x) :
    readNatFrom a (cs ++ ds) = readNatFrom x ds := by
  induction cs generalizing a with
  | nil =>
    simp only [readNatFrom, Option.some.injEq] at h
    subst h; rfl
  | cons c cs ih =>
    simp only [readNatFrom, List.cons_append] at h ⊢
    split at h
    · next d hd => exact ih h
    · simp at h

theorem readNatFrom_digits {cs : List Char} (h : ∀ ch ∈ cs, isDigitChar ch) (a : Nat) :
    ∃ x, readNatFrom 0 cs = some x ∧ readNatFrom a cs = some (a * 10 ^ cs.length + x) := by
  have key : ∃ x, ∀ b, readNatFrom b cs = some (b * 10 ^ cs.length + x) := by
    induction cs with
    | nil => exact ⟨0, fun b => by simp [readNatFrom]⟩
    | cons c cs ih =>
      obtain ⟨n, hn, rfl⟩ := h c (by simp)
      obtain ⟨x, hx⟩ := ih (fun ch hc => h ch (by simp [hc]))
      refine ⟨n * 10 ^ cs.length + x, fun b => ?_⟩
      simp only [readNatFrom, readDigit_digitChar hn (by omega), hx, List.length_cons,
        Option.some.injEq]
      ring
  obtain ⟨x, hx⟩ := key
  exact ⟨x, by rw [hx]; simp, hx a⟩

theorem takeWhile_digits {cs tail : List Char} (h : ∀ ch ∈ cs, isDigitChar ch) :
    (cs ++ '.' :: tail).takeWhile (fun ch => ch != '.') = cs ∧
      (cs ++ '.' :: tail).dropWhile (fun ch => ch != '.') = '.' :: tail := by
  induction cs with
  | nil => simp
  | cons c cs ih =>
    have hc := (h c (by simp)).ne.2.1
    have := ih (fun ch hx => h ch (by simp [hx]))
    simp [hc, this]

theorem takeWhile_all_digits {cs : List Char} (h : ∀ ch ∈ cs, isDigitChar ch) :
    cs.takeWhile (fun ch => ch != '.') = cs ∧ cs.dropWhile (fun ch => ch != '.') = [] := by
  induction cs with
  | nil => simp
  | cons c cs ih =>
    have hc := (h c (by simp)).ne.2.1
    have := ih (fun ch hx => h ch (by simp [hx]))
    simp [hc, this]

theorem readPlaces_showPlaces (k m : Nat) :
    readPlaces (showPlaces k m) = some ((m : Rat) / 10 ^ k) := by
  have hd := padLeft_digits (k + 1) (showNat_digits m)
  have hl := padLeft_length (k + 1) (showNat m)
  have hm : readNatFrom 0 (padLeft (k + 1) (showNat m)) = some m := by
    rw [padLeft, readNatFrom_zeros, ← readNat_of_ne_nil (showNat_ne_nil m), readNat_showNat]
  unfold showPlaces
  generalize padLeft (k + 1) (showNat m) = ds at hd hl hm
  have h1 : ∀ ch ∈ ds.take (ds.length - k), isDigitChar ch := fun ch hc => hd ch (List.mem_of_mem_take hc)
  have h2 : ∀ ch ∈ ds.drop (ds.length - k), isDigitChar ch := fun ch hc => hd ch (List.mem_of_mem_drop hc)
  have hne : ds.take (ds.length - k) ≠ [] := by
    intro e
    have := congrArg List.length e
    simp only [List.length_take, List.length_nil] at this
    omega
  by_cases hk : k = 0
  · subst hk
    simp only [Nat.sub_zero, List.take_length, if_true, List.append_nil] at h1 hne ⊢
    have := takeWhile_all_digits h1
    simp only [readPlaces, this.1, this.2, readNat_of_ne_nil hne, hm]
    simp
  · simp only [if_neg hk]
    have := takeWhile_digits (tail := ds.drop (ds.length - k)) h1
    have hlen : (ds.drop (ds.length - k)).length = k := by
      simp only [List.length_drop]; omega
    have hne2 : ds.drop (ds.length - k) ≠ [] := by
      intro e; rw [e] at hlen; simp at hlen; omega
    obtain ⟨a, ha, _⟩ := readNatFrom_digits h1 0
    obtain ⟨b, hb, hb'⟩ := readNatFrom_digits h2 a
    have hsum : m = a * 10 ^ k + b := by
      have e := readNatFrom_append (ds := ds.drop (ds.length - k)) ha
      rw [List.take_append_drop, hm, hb', hlen] at e
      exact Option.some.inj e
    simp only [readPlaces, this.1, this.2, readNat_of_ne_nil hne, readNat_of_ne_nil hne2, ha, hb,
      hlen, Option.some.injEq]
    rw [hsum]
    push_cast
    have : (10 : Rat) ^ k ≠ 0 := by positivity
    field_simp

theorem showPlaces_head (k m : Nat) : ∃ ch cs, showPlaces k m = ch :: cs ∧ ch ≠ '-' := by
  have hd := padLeft_digits (k + 1) (showNat_digits m)
  have hl := padLeft_length (k + 1) (showNat m)
  unfold showPlaces
  generalize padLeft (k + 1) (showNat m) = ds at hd hl
  cases ds with
  | nil => simp at hl
  | cons c cs =>
    have : (c :: cs).length - k = cs.length - k + 1 := by simp at hl ⊢; omega
    simp only [this, List.take_succ_cons, List.cons_append]
    exact ⟨c, _, rfl, (hd c (by simp)).ne.1⟩

@[simp] theorem readRat_showRat {q : Rat} (h : decimalWithin q 18 = true) :
    readRat (showRat q) = some q := by
  have hden := decimalPlaces_spec q 18 h
  unfold showRat
  generalize decimalPlaces q 18 = k at hden
  have hq : q = ((q * 10 ^ k).num : Rat) / 10 ^ k := by
    have h10 : (10 : Rat) ^ k ≠ 0 := by positivity
    rw [eq_div_iff h10]
    exact ((Rat.den_eq_one_iff _).1 hden).symm
  simp only
  generalize (q * 10 ^ k).num = m at hq
  split
  · next hm =>
    simp only [readRat, readPlaces_showPlaces, Option.some.injEq]
    rw [hq, ← neg_div]
    congr 1
    rw [Nat.cast_natAbs, abs_of_neg hm]
    push_cast
    ring
  · next hm =>
    obtain ⟨ch, cs, hcs, hne⟩ := showPlaces_head k m.natAbs
    have hr : readRat (showPlaces k m.natAbs) = readPlaces (showPlaces k m.natAbs) := by
      rw [hcs]
      unfold readRat
      split
      · next e => exact absurd (List.cons.inj e).1 hne
      · rfl
    rw [hr, readPlaces_showPlaces, hq]
    congr 2
    rw [Nat.cast_natAbs, abs_of_nonneg (by omega)]

end Sys2Proof
end

