-- ==== Sys2Proof/Laws/PerInstr.lean ====
section
/-! SUPPORT. The family RoundTrip: an operation a stimulus line can carry is read back from its words (R116). -/

-- One theorem after another: the joined text then keeps few threads at a time.
set_option Elab.async false

namespace Sys2Proof

theorem readOp_opName (o : Op) : readOp (opName o) = some o := by cases o <;> decide +kernel

theorem decodeWords_encodeWords (i : Instr) :
    decodeWords (encodeWords i) = readOperands (opOf i) (operandWords i) := by
  simp only [encodeWords, decodeWords, readOp_opName]

@[simp] theorem readAnswer_showAnswer (a : Option Bytes) : readAnswer (showAnswer a) = some a := by
  cases a with
  | none => decide +kernel
  | some p => simp [readAnswer, showAnswer]

end Sys2Proof

namespace Sys2Proof.Laws.RoundTrip

/-- The words of an operation a stimulus line can carry decode to it (R116). -/
def Statement (i : Instr) : Prop := i.writable = true → decodeWords (encodeWords i) = .ok i

theorem frByte (b : Byte) : Statement (.frByte b) := by
  intro _
  simp [decodeWords_encodeWords, opOf, operandWords, readOperands, readOne, Decoded.ofOption]

theorem frUpdate (bytes : Bytes) : Statement (.frUpdate bytes) := by
  intro _
  simp [decodeWords_encodeWords, opOf, operandWords, readOperands, Decoded.ofOption]

theorem dpPass (body : Bytes) : Statement (.dpPass body) := by
  intro _
  simp [decodeWords_encodeWords, opOf, operandWords, readOperands, Decoded.ofOption]

theorem spCore (id : Byte) (w : Nat) : Statement (.spCore id w) := by
  intro _
  simp [decodeWords_encodeWords, opOf, operandWords, readOperands, readTwo, readSub, showSub, Decoded.ofOption]

theorem spIr (id : Byte) (w : Nat) : Statement (.spIr id w) := by
  intro _
  simp [decodeWords_encodeWords, opOf, operandWords, readOperands, readTwo, readSub, showSub, Decoded.ofOption]

theorem spDockIr (id : Byte) (w : Nat) : Statement (.spDockIr id w) := by
  intro _
  simp [decodeWords_encodeWords, opOf, operandWords, readOperands, readTwo, readSub, showSub, Decoded.ofOption]

theorem spInertia (id : Byte) (w : Nat) : Statement (.spInertia id w) := by
  intro _
  simp [decodeWords_encodeWords, opOf, operandWords, readOperands, readTwo, readSub, showSub, Decoded.ofOption]

theorem spCliff (id : Byte) (w : Nat) : Statement (.spCliff id w) := by
  intro _
  simp [decodeWords_encodeWords, opOf, operandWords, readOperands, readTwo, readSub, showSub, Decoded.ofOption]

theorem spCurrent (id : Byte) (w : Nat) : Statement (.spCurrent id w) := by
  intro _
  simp [decodeWords_encodeWords, opOf, operandWords, readOperands, readTwo, readSub, showSub, Decoded.ofOption]

theorem spMagnet (id : Byte) (w : Nat) : Statement (.spMagnet id w) := by
  intro _
  simp [decodeWords_encodeWords, opOf, operandWords, readOperands, readTwo, readSub, showSub, Decoded.ofOption]

theorem spHw (id : Byte) (w : Nat) : Statement (.spHw id w) := by
  intro _
  simp [decodeWords_encodeWords, opOf, operandWords, readOperands, readTwo, readSub, showSub, Decoded.ofOption]

theorem spFw (id : Byte) (w : Nat) : Statement (.spFw id w) := by
  intro _
  simp [decodeWords_encodeWords, opOf, operandWords, readOperands, readTwo, readSub, showSub, Decoded.ofOption]

theorem spTime (id : Byte) (w : Nat) : Statement (.spTime id w) := by
  intro _
  simp [decodeWords_encodeWords, opOf, operandWords, readOperands, readTwo, readSub, showSub, Decoded.ofOption]

theorem spGyro (id : Byte) (w : Nat) : Statement (.spGyro id w) := by
  intro _
  simp [decodeWords_encodeWords, opOf, operandWords, readOperands, readTwo, readSub, showSub, Decoded.ofOption]

theorem spEeprom (id : Byte) (w : Nat) : Statement (.spEeprom id w) := by
  intro _
  simp [decodeWords_encodeWords, opOf, operandWords, readOperands, readTwo, readSub, showSub, Decoded.ofOption]

theorem spGpin (id : Byte) (w : Nat) : Statement (.spGpin id w) := by
  intro _
  simp [decodeWords_encodeWords, opOf, operandWords, readOperands, readTwo, readSub, showSub, Decoded.ofOption]

theorem spUnknown (id : Byte) : Statement (.spUnknown id) := by
  intro _
  simp [decodeWords_encodeWords, opOf, operandWords, readOperands, readOne, Decoded.ofOption]

theorem spTrunc (id : Byte) : Statement (.spTrunc id) := by
  intro _
  simp [decodeWords_encodeWords, opOf, operandWords, readOperands, readOne, Decoded.ofOption]

theorem dpNotify : Statement (.dpNotify) := by
  intro _
  simp [decodeWords_encodeWords, opOf, operandWords, readOperands, readNone]

theorem odUpdate (ts : Word16) (el : Word16) (er : Word16) : Statement (.odUpdate ts el er) := by
  intro _
  simp [decodeWords_encodeWords, opOf, operandWords, readOperands, readThree, Decoded.ofOption]

theorem getWheel (name : WheelName) : Statement (.getWheel name) := by
  intro h
  cases name with
  | left => decide +kernel
  | right => decide +kernel
  | other n =>
    simp only [Instr.writable, Instr.wellFormed, wheelNameOk, Bool.and_eq_true, bne_iff_ne] at h
    have hl : n ≠ "left".toList := h.1.1.2
    have hr : n ≠ "right".toList := h.1.2
    simp only [decodeWords_encodeWords, opOf, operandWords, readOperands, readOne, Decoded.ofOption,
      showWheel, readWheel, if_neg hl, if_neg hr]

theorem getPose : Statement (.getPose) := by
  intro _
  simp [decodeWords_encodeWords, opOf, operandWords, readOperands, readNone]

theorem ceVelframe (speed : Word16) (radius : Word16) : Statement (.ceVelframe speed radius) := by
  intro _
  simp [decodeWords_encodeWords, opOf, operandWords, readOperands, readTwo, Decoded.ofOption]

theorem setVel (v : Rat) (w : Rat) : Statement (.setVel v w) := by
  intro h
  simp only [Instr.writable, Instr.wellFormed, Bool.true_and, Bool.and_eq_true] at h
  simp [decodeWords_encodeWords, opOf, operandWords, readOperands, readTwo, Decoded.ofOption,
    readRat_showRat h.1, readRat_showRat h.2]

theorem generic (cmd : Cmd) (answer : Option Bytes) : Statement (.generic cmd answer) := by
  intro h
  cases cmd with
  | baseControl s r =>
    rw [decodeWords_encodeWords]
    simp only [opOf, operandWords, readOperands, readGeneric, List.cons_append, List.nil_append,
      readI16_showInt, readAnswer_showAnswer, if_true, ne_eq, not_true_eq_false, if_false]
  | other n =>
    simp only [Instr.writable, Instr.wellFormed, Bool.true_and, beq_iff_eq] at h
    have ho : ("OTHER".toList) ≠ "BASE".toList := by decide +kernel
    subst h
    rw [decodeWords_encodeWords]
    simp only [opOf, operandWords, readOperands, readGeneric, List.cons_append, List.nil_append,
      readAnswer_showAnswer, if_true, ne_eq, not_true_eq_false, if_false, if_neg ho]

theorem getCmd : Statement (.getCmd) := by
  intro _
  simp [decodeWords_encodeWords, opOf, operandWords, readOperands, readNone]

theorem run : Statement (.run) := by
  intro _
  simp [decodeWords_encodeWords, opOf, operandWords, readOperands, readNone]

theorem stop : Statement (.stop) := by
  intro _
  simp [decodeWords_encodeWords, opOf, operandWords, readOperands, readNone]

theorem iter (bytes : Bytes) : Statement (.iter bytes) := by
  intro _
  simp [decodeWords_encodeWords, opOf, operandWords, readOperands, Decoded.ofOption]

theorem getRec (t : RecType) : Statement (.getRec t) := by
  intro _
  cases t <;> decide +kernel

end Sys2Proof.Laws.RoundTrip
end

