-- ==== Sys2Proof/Laws/Lines.lean ====
section
/-! SUPPORT. A line splits into the words it was joined from, and its characters are bytes (R116). -/

-- One theorem after another: the joined text then keeps few threads at a time.
set_option Elab.async false

namespace Sys2Proof

/-- A word of a line: not empty, no space, one-byte characters. -/
def isWord (w : List Char) : Prop := w ≠ [] ∧ ∀ ch ∈ w, ch ≠ ' ' ∧ ch.toNat < 256

/-- The check of a word, as a Bool for the fixed words. -/
theorem isWord_of_all {w : List Char}
    (h : (!w.isEmpty && w.all (fun ch => ch != ' ' && ch.toNat.blt 256)) = true) : isWord w := by
  simp only [Bool.and_eq_true, Bool.not_eq_true', List.all_eq_true, bne_iff_ne] at h
  refine ⟨by intro e; rw [e] at h; simp at h, fun ch hc => ⟨(h.2 ch hc).1, ?_⟩⟩
  exact Nat.le_of_ble_eq_true (h.2 ch hc).2

theorem splitWords_word {w : List Char} (h : isWord w) : splitWords w = [w] := by
  obtain ⟨hne, hw⟩ := h
  induction w with
  | nil => exact absurd rfl hne
  | cons c cs ih =>
    have hc := (hw c (by simp)).1
    cases cs with
    | nil => simp [splitWords, hc]
    | cons d ds =>
      have hd := (hw d (by simp)).1
      have := ih (by simp) (fun ch hx => hw ch (by simp [hx]))
      conv => lhs; unfold splitWords
      rw [if_neg hc]
      simp only [if_neg hd, this]

theorem splitWords_append {w : List Char} (h : isWord w) (rest : List Char) :
    splitWords (w ++ ' ' :: rest) = w :: splitWords rest := by
  obtain ⟨hne, hw⟩ := h
  induction w with
  | nil => exact absurd rfl hne
  | cons c cs ih =>
    have hc := (hw c (by simp)).1
    have hsp : splitWords (' ' :: rest) = splitWords rest := by
      conv => lhs; unfold splitWords
      exact if_pos rfl
    cases cs with
    | nil =>
      show splitWords (c :: ' ' :: rest) = _
      conv => lhs; unfold splitWords
      rw [if_neg hc]
      simp only [if_true, hsp]
    | cons d ds =>
      have hd := (hw d (by simp)).1
      have := ih (by simp) (fun ch hx => hw ch (by simp [hx]))
      show splitWords (c :: d :: (ds ++ ' ' :: rest)) = _
      conv => lhs; unfold splitWords
      rw [if_neg hc]
      simp only [if_neg hd]
      rw [show d :: (ds ++ ' ' :: rest) = d :: ds ++ ' ' :: rest from rfl, this]

theorem splitWords_joinWords {ws : List (List Char)} (h : ∀ w ∈ ws, isWord w) :
    splitWords (joinWords ws) = ws := by
  induction ws with
  | nil => rfl
  | cons w ws ih =>
    cases ws with
    | nil => exact splitWords_word (h w (by simp))
    | cons v vs =>
      rw [joinWords, splitWords_append (h w (by simp)), ih (fun u hu => h u (by simp [hu]))]

theorem joinWords_bytes {ws : List (List Char)} (h : ∀ w ∈ ws, isWord w) :
    ∀ ch ∈ joinWords ws, ch.toNat < 256 := by
  induction ws with
  | nil => simp [joinWords]
  | cons w ws ih =>
    cases ws with
    | nil => exact fun ch hc => ((h w (by simp)).2 ch hc).2
    | cons v vs =>
      intro ch hc
      rw [joinWords] at hc
      rcases List.mem_append.1 hc with hc | hc
      · exact ((h w (by simp)).2 ch hc).2
      · rcases List.mem_cons.1 hc with rfl | hc
        · decide
        · exact ih (fun u hu => h u (by simp [hu])) ch hc

/-- One-byte characters survive being written as bytes. -/
theorem bytes_chars {cs : List Char} (h : ∀ ch ∈ cs, ch.toNat < 256) :
    (cs.map (fun ch => BitVec.ofNat 8 ch.toNat)).map (fun b : Byte => Char.ofNat b.toNat) = cs := by
  induction cs with
  | nil => rfl
  | cons c cs ih =>
    have hc := h c (by simp)
    simp only [List.map_cons, ih (fun ch hx => h ch (by simp [hx])), List.cons.injEq, and_true]
    rw [BitVec.toNat_ofNat, Nat.mod_eq_of_lt (by omega), Char.ofNat_toNat]

/-! ### The words the encoder writes -/

theorem isWord_opName (o : Op) : isWord (opName o) := by
  cases o <;> exact isWord_of_all (by decide +kernel)

theorem isWord_recName (t : RecType) : isWord (recName t) := by
  cases t <;> exact isWord_of_all (by decide +kernel)

theorem isWord_showByte (b : Byte) : isWord (showByte b) := by
  have hb := b.isLt
  refine ⟨by simp [showByte], fun ch hc => ?_⟩
  simp only [showByte, List.mem_cons, List.not_mem_nil, or_false] at hc
  rcases hc with rfl | rfl
  · exact (digitChar_ne _ (by omega)).2.2
  · exact (digitChar_ne _ (by omega)).2.2

theorem isWord_showNat (n : Nat) : isWord (showNat n) :=
  ⟨showNat_ne_nil n, fun ch hc => (showNat_digits n ch hc).ne.2.2⟩

theorem isWord_minus {w : List Char} (h : isWord w) : isWord ('-' :: w) := by
  refine ⟨by simp, fun ch hc => ?_⟩
  rcases List.mem_cons.1 hc with rfl | hc
  · decide
  · exact h.2 ch hc

theorem isWord_showInt (i : Int) : isWord (showInt i) := by
  unfold showInt
  split
  · exact isWord_minus (isWord_showNat _)
  · exact isWord_showNat _

theorem isWord_showPlaces (k m : Nat) : isWord (showPlaces k m) := by
  obtain ⟨c, cs, hcs, _⟩ := showPlaces_head k m
  refine ⟨by rw [hcs]; simp, fun ch hc => ?_⟩
  have hd := padLeft_digits (k + 1) (showNat_digits m)
  unfold showPlaces at hc
  simp only [List.mem_append] at hc
  rcases hc with hc | hc
  · exact (hd ch (List.mem_of_mem_take hc)).ne.2.2
  · split at hc
    · simp at hc
    · rcases List.mem_cons.1 hc with rfl | hc
      · decide
      · exact (hd ch (List.mem_of_mem_drop hc)).ne.2.2

theorem isWord_showRat (q : Rat) : isWord (showRat q) := by
  unfold showRat
  simp only
  split
  · exact isWord_minus (isWord_showPlaces _ _)
  · exact isWord_showPlaces _ _

theorem isWord_showAnswer (a : Option Bytes) : ∀ w ∈ showAnswer a, isWord w := by
  have ok : isWord "OK".toList := isWord_of_all (by decide +kernel)
  have fail : isWord "FAIL".toList := isWord_of_all (by decide +kernel)
  cases a with
  | none => simpa [showAnswer] using fail
  | some p =>
    intro w hw
    rcases List.mem_cons.1 hw with rfl | hw
    · exact ok
    · obtain ⟨b, _, rfl⟩ := List.mem_map.1 hw
      exact isWord_showByte b

theorem isWord_map_showByte (bs : Bytes) : ∀ w ∈ bs.map showByte, isWord w := by
  intro w hw
  obtain ⟨b, _, rfl⟩ := List.mem_map.1 hw
  exact isWord_showByte b

theorem isWord_showWheel {n : WheelName} (h : (Instr.getWheel n).writable = true) :
    isWord (showWheel n) := by
  cases n with
  | left => exact isWord_of_all (by decide +kernel)
  | right => exact isWord_of_all (by decide +kernel)
  | other w =>
    simp only [Instr.writable, Instr.wellFormed, wheelNameOk, Bool.and_eq_true, bne_iff_ne,
      Bool.not_eq_true', List.all_eq_true, decide_eq_true_eq] at h
    obtain ⟨⟨⟨⟨h1, h2⟩, _⟩, _⟩, h5⟩ := h
    show isWord w
    refine ⟨by simpa using h1, fun ch hc => ⟨?_, h5 ch hc⟩⟩
    rintro rfl
    simp [hc] at h2

end Sys2Proof
end

