-- ==== Sys2Proof/Laws/Odometry.lean ====
section
/-! SUPPORT. What the Odometry Integrator's parts give: the views, the tick delta, the guard of the time stamp (`42_odometry.md`). -/

-- One theorem after another: the joined text then keeps few threads at a time.
set_option Elab.async false

namespace Sys2Proof.Machine

/-- A view whose two bytes lie inside the body is the field (R23, R104), whatever the free value is. -/
theorem view16_field {body : Bytes} {k : Nat} {v : Word16} (free : Nat)
    (h : Spec.fieldAt body k v) : view16 free body k = v := by
  obtain ⟨lo, hi, h1, h2, h3⟩ := h
  apply BitVec.eq_of_toNat_eq
  simp only [view16, byteAt, h1, h2, u16le_toNat, h3]

/-- The tick delta of a wheel (R201, R202): zero on the first sample. -/
theorem tickDelta_eq (cur : Word16) (w : Wheel) :
    tickDelta cur w = if w.init then Spec.sdiff16 cur w.lastTick else 0 := by
  unfold tickDelta seedWheel
  split
  · exact sdiff16_eq _ _
  · exact sdiff16_self _

/-- Two different time stamps have a difference (R205). -/
theorem sdiff16_ne_zero {a b : Word16} (h : a ≠ b) : Spec.sdiff16 a b ≠ 0 := by
  have ha := a.isLt
  have hb := b.isLt
  have : a.toNat ≠ b.toNat := fun e => h (BitVec.eq_of_toNat_eq e)
  simp only [Spec.sdiff16, Spec.asI16]
  split <;> omega

/-- After an update both wheels are seeded (R201). -/
theorem odoUpdate_init (c : Config) (ts el er : Word16) (o : Odometry) :
    (odoUpdate c ts el er o).left.init = true ∧ (odoUpdate c ts el er o).right.init = true := by
  simp only [odoUpdate, wheelUpdate, seedWheel]
  constructor <;> split <;> simp_all

end Sys2Proof.Machine
end

