-- ==== Sys2Proof/Laws/Registry.lean ====
section
/-! SUPPORT. What a valid configuration says of the Registry (R344), and which pulses an id gives (R182). -/

-- One theorem after another: the joined text then keeps few threads at a time.
set_option Elab.async false

namespace Sys2Proof.Machine

theorem configValid_types {c : Config} (h : configValid c = true) : (c.reg.map (·.type)).Nodup := by
  simp only [configValid, Bool.and_eq_true, decide_eq_true_eq] at h
  exact h.1.1.1.1.1.1.1.1.2

/-- Each type has one entry. -/
theorem entry_of_type {c : Config} (h : configValid c = true) {e f : RegEntry} (he : e ∈ c.reg)
    (hf : f ∈ c.reg) (ht : e.type = f.type) : e = f :=
  List.inj_on_of_nodup_map (configValid_types h) he hf ht

/-- `ID_CORE` is the id of the CORE entry. -/
theorem idCore_iff {c : Config} (h : configValid c = true) {id : Byte} {e : RegEntry}
    (he : regLookup c id = some e) : c.idCore = some id ↔ e.type = .core := by
  have hi : idCoreOk c = true := by
    simp only [configValid, Bool.and_eq_true] at h
    exact h.1.1.1.1.1.1.1.2
  have hm := regLookup_mem he
  unfold idCoreOk at hi
  constructor
  · intro hc
    rw [hc] at hi
    simp only [he] at hi
    simpa using hi
  · intro ht
    cases hc : c.idCore with
    | none =>
      rw [hc] at hi
      simp at hi
      exact absurd ht (hi e hm.1)
    | some k =>
      rw [hc] at hi
      cases hl : regLookup c k with
      | none => simp [hl] at hi
      | some f =>
        simp only [hl, beq_iff_eq] at hi
        have := entry_of_type h hm.1 (regLookup_mem hl).1 (ht.trans hi.symm)
        rw [← hm.2, this, (regLookup_mem hl).2]

/-- A pulse of an id is its record's, or `ODOM` for the id of CORE (R182 step 2). -/
theorem mem_pulsesOf {c : Config} {id : Byte} {o : Output} (h : o ∈ pulsesOf c id) :
    ∃ e, regLookup c id = some e ∧
      (o = .notify (.record e.type) ∨ (o = .notify .odom ∧ c.idCore = some id)) := by
  unfold pulsesOf at h
  cases he : regLookup c id with
  | none => rw [he] at h; simp at h
  | some e =>
    rw [he] at h
    refine ⟨e, rfl, ?_⟩
    rcases List.mem_cons.1 h with h | h
    · exact .inl h
    · split at h
      · next hc => exact .inr ⟨by simpa using h, hc⟩
      · simp at h

end Sys2Proof.Machine
end

