-- ==== Sys2Proof/Machine/Render.lean ====
section
/-! DEFINITION. The output half of the stimulus lines (R116): how an output event is written. No operation reads it. -/

namespace Sys2Proof.Machine

/-- A rational as an exact fraction. -/
def showFraction (q : Rat) : List Char :=
  if q.den = 1 then showInt q.num else showInt q.num ++ '/' :: showNat q.den

/-- Values between parentheses, a comma and a space between them. -/
def showTuple (vs : List (List Char)) : List Char :=
  '(' :: (List.intercalate ", ".toList vs ++ ")".toList)

/-- A triple of `Num`. -/
def showTriple (t : Triple) : List Char :=
  showTuple [showFraction t.x, showFraction t.y, showFraction t.theta]

/-- The name of a pulse (R116, R310). -/
def showPulse : Pulse → List Char
  | .record t => recName t
  | .odom => "ODOM".toList
  | .cmd => "CMD".toList

/-- A reported error and its information (R116, R300); the silent kinds are never written. -/
def showErr : Err → List (List Char)
  | .transient => ["Transient".toList]
  | .framingReject _ => ["FramingReject".toList]
  | .dispatchCorruption => ["DispatchCorruption".toList]
  | .serialization _ => ["Serialization".toList]
  | .cmdRange sp ra => ["CmdRange".toList, showInt sp, showInt ra]

/-- An accessor's answer (R116, which writes it as a value without giving its form). How a
record (R282) is written is the model's choice (DESIGN CHOICE, log 22): its bytes, followed for CORE by the
tuple of its three views. A refused accessor's line has R12's answer "no value". -/
def showAnswerValue : Answer → List (List Char)
  | .wheel p v => [showTuple [showFraction p, showFraction v]]
  | .pose d r => [showTuple [showTriple d, showTriple r]]
  | .command sp ra => [showTuple [showInt sp.toInt, showInt ra.toInt]]
  | .record body => body.map showByte
  | .coreRecord body ts el er =>
    body.map showByte ++ [showTuple [showNat ts.toNat, showNat el.toNat, showNat er.toNat]]
  | .noValue => ["no".toList, "value".toList]

/-- The words of an output line, after its `=>` (R116). -/
def outputWords : Output → List (List Char)
  | .tx bytes => "TX".toList :: bytes.map showByte
  | .notify p => ["NOTIFY".toList, showPulse p]
  | .err e => "ERR".toList :: showErr e
  | .answer a => showAnswerValue a

/-- An output line (R116). -/
def outputLine (o : Output) : List Char := joinWords ("=>".toList :: outputWords o)

end Sys2Proof.Machine
end

