-- ==== Sys2Proof/Tests/Slice0.lean ====
section
/-! SUPPORT. The model's own tests: ill-formed terms, words written out from the spec, one step per vector of `95_test_vectors.md`, and a witness for the hypotheses of every statement. -/

namespace Sys2Proof.Tests

-- One after another: a test that waits for the ones before it would hold a thread of its own.
set_option Elab.async false

open Sys2Proof Sys2Proof.Machine

/-- Reset under the spec's test configuration (section 95, part 1). -/
def s0 : State := State.init Config.cfg0

/-- What an operation leaves, if it answers a next state. -/
def run (i : Instr) (s : State) : Option State :=
  match exec i s with
  | .next t => some t
  | _ => none

/-- One field of what an operation leaves. -/
def look {α : Type} (f : State → α) (i : Instr) (s : State) : Option α := (run i s).map f

/-- The odometry registers after V-OD-2 as the vector writes them. -/
def odo2 : Odometry :=
  ⟨⟨true, 65530, 0, 0, 0⟩, ⟨true, 100, 0, 0, 0⟩, 1000, 1, tripleZero, tripleZero⟩

/-- The odometry registers after V-OD-3 as the vector writes them. -/
def odo3 : Odometry :=
  ⟨⟨true, 10, 1 / 25, 7 / 5, 2⟩, ⟨true, 90, -1 / 40, -7 / 8, -5 / 4⟩, 1020, 1 / 50,
    ⟨21 / 80000, 0, -91 / 9200⟩, ⟨21 / 1600, 0, -91 / 184⟩⟩

/-- The CORE body of F2. -/
def coreF2 : Bytes :=
  [0xFC, 0x03, 0x00, 0x00, 0x00, 0x0A, 0x00, 0x5A, 0x00, 0x00, 0x00, 0x00, 0x00, 0xA0, 0x00]

/-- FC, one CURRENT sub-packet. -/
def fc : Bytes := [0xAA, 0x55, 0x03, 0x06, 0x11, 0x22, 0x36]

/-- `CFG0` with a CURRENT width that is read from its body's first byte. -/
def cfgVar : Config :=
  { Config.cfg0 with reg := [⟨0x01, .core, .fixed 15⟩, ⟨0x06, .current, .byRest .lengthByte⟩] }

/-! ### Well-formedness: an ill-formed term for each check -/

theorem test_wf_body_length : (Instr.dpPass [0x03, 0x06, 0x11, 0x22, 0x36]).wellFormed = true ∧
    (Instr.dpPass [0x03, 0x06, 0x11, 0x36]).wellFormed = false ∧
    (Instr.dpPass []).wellFormed = false := by decide +kernel

theorem test_wf_width : (Instr.spCore 1 254).wellFormed = true ∧
    (Instr.spCore 1 255).wellFormed = false ∧ (Instr.spGpin 1 300).wellFormed = false := by
  decide +kernel

theorem test_wf_wheel_name :
    (Instr.getWheel (.other "middle".toList)).wellFormed = true ∧
    (Instr.getWheel (.other "left".toList)).wellFormed = false ∧
    (Instr.getWheel (.other "right".toList)).wellFormed = false ∧
    (Instr.getWheel (.other [])).wellFormed = false ∧
    (Instr.getWheel (.other "a b".toList)).wellFormed = false := by decide +kernel

theorem test_writable_checks :
    (Instr.setVel (1 / 3) 0).writable = false ∧ (Instr.setVel (1 / 2) 0).writable = true ∧
    (Instr.generic (.other 1) none).writable = false ∧
    (Instr.getWheel (.other [Char.ofNat 300])).writable = false := by decide +kernel

/-! ### Decoding: words written out from the spec's encodings -/

/-- The thirteen ids of `CFG0` (R101), each before a body of its width and the checksum byte, and the two
rejects. -/
theorem test_decode_headers :
    decodeHeader Config.cfg0 (0x01 :: List.replicate 16 0) = some (.spCore 0x01 15) ∧
    decodeHeader Config.cfg0 [0x02, 0x0A, 0x0B, 0x0C, 0x00] = some (.spIr 0x02 3) ∧
    decodeHeader Config.cfg0 [0x03, 0x01, 0x02, 0x04, 0x00] = some (.spDockIr 0x03 3) ∧
    decodeHeader Config.cfg0 (0x04 :: List.replicate 8 0) = some (.spInertia 0x04 7) ∧
    decodeHeader Config.cfg0 (0x05 :: List.replicate 7 0) = some (.spCliff 0x05 6) ∧
    decodeHeader Config.cfg0 [0x06, 0x11, 0x22, 0x36] = some (.spCurrent 0x06 2) ∧
    decodeHeader Config.cfg0 [0x07, 0xFF, 0x00, 0x00] = some (.spMagnet 0x07 2) ∧
    decodeHeader Config.cfg0 [0x08, 0x10, 0x20, 0x06] = some (.spTime 0x08 2) ∧
    decodeHeader Config.cfg0 [0x0A, 0x04, 0x00, 0x01, 0x00, 0x06] = some (.spHw 0x0A 4) ∧
    decodeHeader Config.cfg0 [0x0B, 0x00, 0x02, 0x01, 0x00, 0x0D] = some (.spFw 0x0B 4) ∧
    decodeHeader Config.cfg0 (0x0D :: List.replicate 9 0) = some (.spGyro 0x0D 8) ∧
    decodeHeader Config.cfg0 [0x0F, 0xDE, 0xAD, 0xBE, 0xEF, 0xC7] = some (.spEeprom 0x0F 4) ∧
    decodeHeader Config.cfg0 (0x10 :: List.replicate 17 0) = some (.spGpin 0x10 16) ∧
    decodeHeader Config.cfg0 [0x63, 0x11, 0x22, 0x53] = some (.spUnknown 0x63) ∧
    decodeHeader Config.cfg0 [0x06, 0x77, 0x4C] = some (.spTrunc 0x06) ∧
    decodeHeader Config.cfg0 [] = none := by decide +kernel

/-- Stimulus lines as R116 and section 95 write them: the input events. -/
theorem test_decode_event_lines :
    decodeLine "ITER AA 55 03".toList = .ok (.iter [0xAA, 0x55, 0x03]) ∧
    decodeLine "ITER".toList = .ok (.iter []) ∧
    decodeLine "SETVEL 0.3 -2".toList = .ok (.setVel (3 / 10) (-2)) ∧
    decodeLine "GENERIC BASE -100 250 / OK 01 9C".toList =
      .ok (.generic (.baseControl (-100) 250) (some [0x01, 0x9C])) ∧
    decodeLine "GENERIC OTHER / OK".toList = .ok (.generic (.other 0) (some [])) ∧
    decodeLine "GENERIC OTHER / FAIL".toList = .ok (.generic (.other 0) none) ∧
    decodeLine "RUN".toList = .ok .run ∧ decodeLine "STOP".toList = .ok .stop ∧
    decodeLine "GETWHEEL left".toList = .ok (.getWheel .left) ∧
    decodeLine "GETWHEEL right".toList = .ok (.getWheel .right) ∧
    decodeLine "GETWHEEL middle".toList = .ok (.getWheel (.other "middle".toList)) ∧
    decodeLine "GETREC DOCKIR".toList = .ok (.getRec .dockIr) ∧
    decodeLine "GETPOSE".toList = .ok .getPose ∧ decodeLine "GETCMD".toList = .ok .getCmd := by
  decide +kernel

/-- Lines of the other operations (log 15). -/
theorem test_decode_operation_lines :
    decodeLine "FR.BYTE AA".toList = .ok (.frByte 0xAA) ∧
    decodeLine "FR.UPDATE AA 55".toList = .ok (.frUpdate [0xAA, 0x55]) ∧
    decodeLine "DP.PASS 03 06 11 22 36".toList = .ok (.dpPass [0x03, 0x06, 0x11, 0x22, 0x36]) ∧
    decodeLine "SP.CORE 01 15".toList = .ok (.spCore 0x01 15) ∧
    decodeLine "SP.IR 02 3".toList = .ok (.spIr 0x02 3) ∧
    decodeLine "SP.DOCKIR 03 3".toList = .ok (.spDockIr 0x03 3) ∧
    decodeLine "SP.INERTIA 04 7".toList = .ok (.spInertia 0x04 7) ∧
    decodeLine "SP.CLIFF 05 6".toList = .ok (.spCliff 0x05 6) ∧
    decodeLine "SP.CURRENT 06 2".toList = .ok (.spCurrent 0x06 2) ∧
    decodeLine "SP.MAGNET 07 2".toList = .ok (.spMagnet 0x07 2) ∧
    decodeLine "SP.HW 0A 4".toList = .ok (.spHw 0x0A 4) ∧
    decodeLine "SP.FW 0B 4".toList = .ok (.spFw 0x0B 4) ∧
    decodeLine "SP.TIME 08 2".toList = .ok (.spTime 0x08 2) ∧
    decodeLine "SP.GYRO 0D 8".toList = .ok (.spGyro 0x0D 8) ∧
    decodeLine "SP.EEPROM 0F 4".toList = .ok (.spEeprom 0x0F 4) ∧
    decodeLine "SP.GPIN 10 16".toList = .ok (.spGpin 0x10 16) ∧
    decodeLine "SP.UNKNOWN 63".toList = .ok (.spUnknown 0x63) ∧
    decodeLine "SP.TRUNC 06".toList = .ok (.spTrunc 0x06) ∧
    decodeLine "DP.NOTIFY".toList = .ok .dpNotify ∧
    decodeLine "OD.UPDATE 1020 10 90".toList = .ok (.odUpdate 1020 10 90) ∧
    decodeLine "CE.VELFRAME -385 -500".toList = .ok (.ceVelframe (-385) (-500)) := by decide +kernel

theorem test_decode_rejects :
    decodeLine "".toList = .reject .emptyLine ∧ decodeLine "JUMP".toList = .reject .unknownName ∧
    decodeLine "RUN 1".toList = .reject .operandCount ∧
    decodeLine "FR.BYTE AG".toList = .reject .badOperand ∧
    decodeLine "CE.VELFRAME 32768 0".toList = .reject .badOperand ∧
    decodeLine "OD.UPDATE 65536 0 0".toList = .reject .badOperand ∧
    decodeCommand [0xAA, 0x56, 0x00, 0x00] = .reject .noStart ∧
    decodeCommand [0xAA, 0x55, 0x01, 0x00] = .reject .frameLength ∧
    decodeCommand [0xAA, 0x55, 0x00, 0x01] = .reject .frameChecksum := by decide +kernel

/-- Command frames of V-CE-1 and V-CE-4. -/
theorem test_decode_frames :
    decodeCommand [0xAA, 0x55, 0x05, 0x01, 0x7F, 0xFE, 0x0C, 0xFE, 0x77] =
      .ok (.ceVelframe (-385) (-500)) ∧
    decodeCommand [0xAA, 0x55, 0x05, 0x01, 0xFF, 0x7F, 0x00, 0x80, 0x04] =
      .ok (.ceVelframe 32767 (-32768)) ∧
    decodeCommand [0xAA, 0x55, 0x00, 0x00] = .ok (.generic (.other 0) (some [])) := by
  decide +kernel

theorem test_table_words :
    decodeTableWord 16 0xAA55 = some (.frByte 0xAA) ∧
    decodeTableWord 32 0xAA550501 = some (.ceVelframe 0 0) ∧
    decodeTableWord 64 0xAA5505016702F401 = some (.ceVelframe 615 500) ∧
    decodeTableWord 16 0x55AA = none ∧
    decodeTableWord 8 0x01 = some (.spCore 0x01 15) ∧
    decodeTableWord 8 0x10 = some (.spGpin 0x10 16) ∧
    decodeTableWord 8 0x00 = some (.spUnknown 0x00) := by decide +kernel

/-- The placed word is the first operation after reset. -/
theorem test_fetch_word :
    step (State.reset.withFetchWord 32 0xAA550501) =
      exec (.ceVelframe 0 0) { State.reset with cfg := Config.cfg0 } := by
  have hv : configValid Config.cfg0 = true := by decide +kernel
  have hd : decodeTableWord 32 0xAA550501 = some (.ceVelframe 0 0) := by decide +kernel
  simp [State.withFetchWord, placeTableWord, hd, pushOperation, step, fetch, State.setQueue,
    State.setCfg, hv]

/-- A placed header id runs its decode on zero bytes. -/
theorem test_fetch_header : (match step (s0.withFetchWord 8 0x06) with
    | .next t => decide (t.recs.current = some [0, 0] ∧ t.upd = [0x06] ∧ t.dpBuf.length = 15)
    | _ => false) = true := by decide +kernel

theorem test_step_runs : (match step { s0 with queue := [.run, .stop] } with
    | .next t => decide (t.enState = .running ∧ t.queue = [.stop])
    | _ => false) = true := by decide +kernel

/-! ### Helpers: V-H-1 to V-H-4 -/

theorem test_sdiff16 : sdiff16 10 65530 = 16 ∧ sdiff16 65530 10 = -16 ∧ sdiff16 0 65535 = 1 ∧
    sdiff16 32768 0 = -32768 ∧ sdiff16 0 32768 = -32768 ∧ sdiff16 32767 0 = 32767 := by
  decide +kernel

theorem test_checksum_and_order : xor8 [0x03, 0x06, 0x11, 0x22] = 0x36 ∧ xor8 [] = 0 ∧
    le16 (toI16 (-385)) = [0x7F, 0xFE] ∧ le16 (toI16 (-32768)) = [0x00, 0x80] ∧
    u16le 0xFA 0xFF = 65530 ∧ u16le 0xE8 0x03 = 1000 := by decide +kernel

theorem test_round : [1 / 2, -1 / 2, 3 / 2, -3 / 2, 5 / 2, 231 / 2, -615 / 2, 49 / 100,
    -49 / 100, 0].map (roundNum .tiesAway) = [1, -1, 2, -2, 3, 116, -308, 0, 0, 0] := by
  decide +kernel

/-! ### The Framer -/

/-- V-FR-4: AA in SCAN_AA stays. -/
theorem test_frByte_aa : look State.fr (.frByte 0xAA) (s0.setFr ⟨.scanAA, []⟩) =
    some ⟨.scanAA, []⟩ := by decide +kernel

/-- V-FR-3: the seventh byte yields the body. -/
theorem test_frByte_last :
    look State.result (.frByte 0x36) (s0.setFr ⟨.body, [0x03, 0x06, 0x11, 0x22]⟩) =
      some (.frame [0x03, 0x06, 0x11, 0x22, 0x36]) := by decide +kernel

/-- V-FR-9: a frame inside a rejected candidate is lost, the frame after it is found. -/
theorem test_frUpdate_no_backtrack :
    look State.result (.frUpdate ([0xAA, 0x55, 0x08, 0xAA, 0x55, 0x03, 0x06, 0x11, 0x22, 0x36,
      0x00, 0x00] ++ fc)) s0 = some (.frames [[0x03, 0x06, 0x11, 0x22, 0x36]]) := by
  decide +kernel

/-- V-FR-8: a rejected length byte AA is consumed. -/
theorem test_frUpdate_length_consumed :
    look (fun t => (t.fr, t.result)) (.frUpdate [0xAA, 0x55, 0xAA, 0x55, 0x03, 0x06, 0x11, 0x22,
      0x36]) s0 = some (⟨.scan, []⟩, .frames []) := by decide +kernel

/-! ### The Dispatcher -/

/-- V-DP-9: the later of two, one pulse a type, in id order. -/
theorem test_dpPass_twice :
    look (fun t => (t.recs.hw, t.recs.current, t.trace)) (.dpPass [0x0B, 0x0A, 0x04, 0x00, 0x01,
      0x00, 0x06, 0x99, 0x88, 0x06, 0x12, 0x34, 0x33]) s0 =
    some (some [0x04, 0x00, 0x01, 0x00], some [0x12, 0x34],
      [.notify (.record .current), .notify (.record .hw)]) := by decide +kernel

/-- V-DP-6: an unknown id drops the rest and reports nothing. -/
theorem test_dpPass_unknown :
    look (fun t => (t.recs.current, t.trace)) (.dpPass [0x09, 0x06, 0x33, 0x44, 0x63, 0x01, 0x02,
      0x06, 0x55, 0x66, 0x2D]) s0 =
    some (some [0x33, 0x44], [.notify (.record .current)]) := by decide +kernel

/-- V-DP-1 to V-DP-3, V-DP-8 to V-DP-10: each decode stores its body in its own record. -/
theorem test_decodes_store :
    look (fun t => t.recs.core) (.spCore 0x01 15) (s0.setDpBuf (coreF2 ++ [0x1E])) =
      some (some coreF2) ∧
    look (fun t => t.recs.ir) (.spIr 0x02 3) (s0.setDpBuf [0x0A, 0x0B, 0x0C, 0x08]) =
      some (some [0x0A, 0x0B, 0x0C]) ∧
    look (fun t => t.recs.dockIr) (.spDockIr 0x03 3) (s0.setDpBuf [0x01, 0x02, 0x04, 0x04]) =
      some (some [0x01, 0x02, 0x04]) ∧
    look (fun t => t.recs.inertia) (.spInertia 0x04 7)
      (s0.setDpBuf [0x10, 0x27, 0, 0, 0, 0, 0, 0x05]) =
      some (some [0x10, 0x27, 0, 0, 0, 0, 0]) ∧
    look (fun t => t.recs.cliff) (.spCliff 0x05 6) (s0.setDpBuf [1, 0, 2, 0, 3, 0, 7]) =
      some (some [1, 0, 2, 0, 3, 0]) ∧
    look (fun t => t.recs.current) (.spCurrent 0x06 2) (s0.setDpBuf [0x11, 0x22, 0x36]) =
      some (some [0x11, 0x22]) ∧
    look (fun t => t.recs.magnet) (.spMagnet 0x07 2) (s0.setDpBuf [0xFF, 0x00, 0x0B]) =
      some (some [0xFF, 0x00]) ∧
    look (fun t => t.recs.time) (.spTime 0x08 2) (s0.setDpBuf [0x10, 0x20, 0x06, 0x77, 0x4C]) =
      some (some [0x10, 0x20]) ∧
    look (fun t => t.recs.hw) (.spHw 0x0A 4) (s0.setDpBuf [4, 0, 1, 0, 6]) =
      some (some [4, 0, 1, 0]) ∧
    look (fun t => t.recs.fw) (.spFw 0x0B 4) (s0.setDpBuf [0, 2, 1, 0, 0x0D]) =
      some (some [0, 2, 1, 0]) ∧
    look (fun t => t.recs.gyro) (.spGyro 0x0D 8) (s0.setDpBuf [1, 6, 0, 0, 0, 0, 0, 0, 0x0F]) =
      some (some [1, 6, 0, 0, 0, 0, 0, 0]) ∧
    look (fun t => t.recs.eeprom) (.spEeprom 0x0F 4) (s0.setDpBuf [0xDE, 0xAD, 0xBE, 0xEF, 0xC7]) =
      some (some [0xDE, 0xAD, 0xBE, 0xEF]) ∧
    look (fun t => t.recs.gpin) (.spGpin 0x10 16)
      (s0.setDpBuf [0, 1, 2, 3, 4, 5, 6, 7, 8, 9, 10, 11, 12, 13, 14, 15, 1]) =
      some (some [0, 1, 2, 3, 4, 5, 6, 7, 8, 9, 10, 11, 12, 13, 14, 15]) := by decide +kernel

/-- A decode leaves the buffer after its body and the set with its id, ascending (V-DP-8). -/
theorem test_decode_buffer :
    look (fun t => (t.dpBuf, t.upd)) (.spTime 0x08 2)
      ((s0.setDpBuf [0x10, 0x20, 0x06, 0x77, 0x4C]).setUpd [0x0A]) =
    some ([0x06, 0x77, 0x4C], [0x08, 0x0A]) := by decide +kernel

/-- V-DP-6, V-DP-8: the two rejects drop the rest and nothing else. -/
theorem test_rejects_drop :
    run (.spUnknown 0x63) (s0.setDpBuf [1, 2, 6, 0x55, 0x66, 0x2D]) = some s0 ∧
    run (.spTrunc 0x06) (s0.setDpBuf [0x77, 0x4C]) = some s0 := by decide +kernel

/-- V-DP-10: ODOM directly after CORE, then TIME and HW in id order; odometry runs first. -/
theorem test_dpNotify_order :
    look (fun t => (t.trace, t.upd, t.odo)) .dpNotify
      { s0 with
        upd := [0x01, 0x08, 0x0A], recs := { Records.reset with core := some coreF2 }, odo := odo2 } =
    some ([.notify (.record .core), .notify .odom, .notify (.record .time), .notify (.record .hw)],
      [], odo3) := by decide +kernel

/-! ### Odometry -/

/-- V-OD-2 from reset. -/
theorem test_odUpdate_first : look State.odo (.odUpdate 1000 65530 100) s0 = some odo2 := by
  decide +kernel

/-- V-OD-4: a stalled time stamp after V-OD-3. -/
theorem test_odUpdate_stalled :
    look State.odo (.odUpdate 1020 30 90) (s0.setOdo odo3) =
      some ⟨⟨true, 30, 9 / 100, 63 / 20, 0⟩, ⟨true, 90, -1 / 40, -7 / 8, 0⟩, 1020, 1 / 50,
        ⟨7 / 8000, 0, -7 / 920⟩, tripleZero⟩ := by decide +kernel

/-- V-OD-3 and V-OD-7. -/
theorem test_getWheel :
    look State.trace (.getWheel .left) (s0.setOdo odo3) = some [.answer (.wheel (1 / 25) 2)] ∧
    look State.trace (.getWheel .right) (s0.setOdo odo3) =
      some [.answer (.wheel (-1 / 40) (-5 / 4))] ∧
    look State.trace (.getWheel (.other "middle".toList)) s0 = some [.answer .noValue] := by
  decide +kernel

theorem test_getPose : look State.trace .getPose (s0.setOdo odo3) =
    some [.answer (.pose ⟨21 / 80000, 0, -91 / 9200⟩ ⟨21 / 1600, 0, -91 / 184⟩)] := by
  decide +kernel

/-! ### The Command Encoder -/

/-- V-CE-1. -/
theorem test_velframe :
    look State.result (.ceVelframe (-385) (-500)) s0 =
      some (.encoded [0xAA, 0x55, 0x05, 0x01, 0x7F, 0xFE, 0x0C, 0xFE, 0x77]) ∧
    look State.result (.ceVelframe 32767 (-32768)) s0 =
      some (.encoded [0xAA, 0x55, 0x05, 0x01, 0xFF, 0x7F, 0x00, 0x80, 0x04]) := by decide +kernel

/-- V-CE-2 rows 5, 8, 12 and 15. -/
theorem test_setVel :
    look State.cmd (.setVel 0 (-1)) s0 = some ⟨115, -1⟩ ∧
    look State.cmd (.setVel (-1 / 2) 1) s0 = some ⟨-385, -500⟩ ∧
    look State.cmd (.setVel (3 / 2000) 1) s0 = some ⟨117, 2⟩ ∧
    look State.cmd (.setVel (1 / 4) (-1 / 2)) s0 = some ⟨308, -500⟩ := by decide +kernel

/-- V-CE-2 row 16. -/
theorem test_setVel_range :
    look (fun t => (t.cmd, t.trace)) (.setVel 40 0) s0 =
      some (⟨0, 0⟩, [.err (.cmdRange 40000 0)]) := by decide +kernel

/-- V-CE-4, the base-control command. -/
theorem test_generic_base :
    look (fun t => (t.cmd, t.trace)) (.generic (.baseControl (-100) 250)
      (some [0x01, 0x9C, 0xFF, 0xFA, 0x00])) s0 =
    some (⟨-100, 250⟩, [.tx [0xAA, 0x55, 0x05, 0x01, 0x9C, 0xFF, 0xFA, 0x00, 0x9D],
      .notify .cmd]) := by decide +kernel

/-- V-CE-4, a payload of 256 bytes and of none. -/
theorem test_generic_other :
    look State.trace (.generic (.other 0) (some (List.replicate 256 0))) s0 =
      some [.err (.serialization (.other 0))] ∧
    look State.trace (.generic (.other 0) (some [])) s0 = some [.tx [0xAA, 0x55, 0x00, 0x00]] := by
  decide +kernel

theorem test_getCmd : look State.trace .getCmd (s0.setCmd ⟨-100, 250⟩) =
    some [.answer (.command (-100) 250)] := by decide +kernel

/-! ### The Engine Loop -/

/-- V-EN-6, V-EN-7. -/
theorem test_run : look State.enState .run (s0.setEn .stopped) = some .running := by
  decide +kernel

/-- V-EN-7, V-EN-2. -/
theorem test_stop :
    look (fun t => (t.cmd, t.enState, t.trace)) .stop ((s0.setEn .running).setCmd ⟨500, 0⟩) =
      some (⟨0, 0⟩, .stopped,
        [.notify .cmd, .tx [0xAA, 0x55, 0x05, 0x01, 0x00, 0x00, 0x00, 0x00, 0x04]]) ∧
    look State.enState .stop s0 = some .idle := by decide +kernel

/-- Program P1, the second half of F2, after V-OD-2. -/
theorem test_iter :
    look (fun t => (t.recs.core, t.odo, t.trace)) (.iter [0x00, 0x00, 0x0A, 0x00, 0x5A, 0x00, 0x00,
        0x00, 0x00, 0x00, 0xA0, 0x00, 0x1E])
      { s0 with
        enState := .running, cmd := ⟨615, 500⟩, odo := odo2
        fr := ⟨.body, [0x10, 0x01, 0xFC, 0x03, 0x00]⟩ } =
    some (some coreF2, odo3, [.notify (.record .core), .notify .odom,
      .tx [0xAA, 0x55, 0x05, 0x01, 0x67, 0x02, 0xF4, 0x01, 0x94]]) := by decide +kernel

/-- V-EN-1, and V-EN-3 while stopped. -/
theorem test_iter_idle_and_empty :
    run (.iter [0xAA, 0x55]) s0 = some s0 ∧
    look State.trace (.iter []) ((s0.setEn .stopped).setCmd ⟨500, 0⟩) =
      some [.err .transient, .tx [0xAA, 0x55, 0x05, 0x01, 0x00, 0x00, 0x00, 0x00, 0x04]] := by
  decide +kernel

/-- R282 after program P1. -/
theorem test_getRec :
    look State.trace (.getRec .core) (s0.setRecs { Records.reset with core := some coreF2 }) =
      some [.answer (.coreRecord coreF2 1020 10 90)] ∧
    look State.trace (.getRec .hw) s0 = some [.answer .noValue] := by decide +kernel

/-- Output lines as R116 writes them; the last is the model's form of a record (log 22). -/
theorem test_render :
    outputLine (.notify .odom) = "=> NOTIFY ODOM".toList ∧
    outputLine (.err (.cmdRange 40000 0)) = "=> ERR CmdRange 40000 0".toList ∧
    outputLine (.tx [0xAA, 0x55, 0x00, 0x00]) = "=> TX AA 55 00 00".toList ∧
    outputLine (.answer (.wheel (-1 / 40) (-5 / 4))) = "=> (-1/40, -5/4)".toList ∧
    outputLine (.answer (.coreRecord [0xFC, 0x03] 1020 10 90)) = "=> FC 03 (1020, 10, 90)".toList := by
  decide +kernel

/-! ### Construction (R344) -/

theorem test_construction_checks :
    configValid Config.cfg0 = true ∧
    configValid { Config.cfg0 with lenMin := 65 } = false ∧
    configValid { Config.cfg0 with lenMin := 64 } = true ∧
    configValid { Config.cfg0 with lenMax := 256 } = false ∧
    configValid { Config.cfg0 with lenMax := 255 } = true ∧
    configValid { Config.cfg0 with reg := ⟨0x09, .ir, .fixed 1⟩ :: Config.cfg0.reg } = false ∧
    configValid { Config.cfg0 with idCore := some 0x02 } = false ∧
    configValid { Config.cfg0 with idCore := some 0x63 } = false ∧
    configValid { Config.cfg0 with idCore := none } = false ∧
    configValid { Config.cfg0 with idCore := none, reg := [] } = true ∧
    configValid { Config.cfg0 with offTs := 14 } = false ∧
    configValid { Config.cfg0 with offTs := 13 } = true ∧
    configValid { Config.cfg0 with offEncL := 14 } = false ∧
    configValid { Config.cfg0 with offEncR := 14 } = false ∧
    configValid { Config.cfg0 with offTs := 4 } = false ∧
    configValid { Config.cfg0 with offTs := 3 } = true ∧
    configValid { Config.cfg0 with offTs := 8 } = false ∧
    configValid { Config.cfg0 with offEncL := 6 } = false ∧
    configValid { Config.cfg0 with wheelbase := 0 } = false := by decide +kernel

/-! ### Witnesses: the hypotheses of each statement, met by a concrete state and operands -/

theorem test_witness_ScanByteHuntsForStart : s0.fr.state = .scan := by decide +kernel

theorem test_witness_ScanAAByteMatchesStart :
    (s0.setFr ⟨.scanAA, []⟩).fr = ⟨.scanAA, []⟩ := by decide +kernel

/-- Both clauses at the limits 1 and 64 of `CFG0`. -/
theorem test_witness_LengthByteIsJudged :
    (s0.setFr ⟨.len, []⟩).fr.state = .len ∧
    (s0.cfg.lenMin ≤ (1 : Byte).toNat ∧ (1 : Byte).toNat ≤ s0.cfg.lenMax) ∧
    (s0.cfg.lenMin ≤ (64 : Byte).toNat ∧ (64 : Byte).toNat ≤ s0.cfg.lenMax) ∧
    (0 : Byte).toNat < s0.cfg.lenMin ∧ s0.cfg.lenMax < (65 : Byte).toNat := by decide +kernel

/-- The three clauses: the last byte before completion, the last byte with a right and a wrong checksum, and
with the checksum unchecked. -/
theorem test_witness_BodyByteStoresThenSettles :
    ([0x06, 0x11] : Bytes).length < (0x03 : Byte).toNat ∧
    ([0x06, 0x11, 0x22] : Bytes).length = (0x03 : Byte).toNat ∧ s0.cfg.checkEn = true ∧
    xor8 [0x03, 0x06, 0x11, 0x22, 0x36] = 0 ∧ xor8 [0x03, 0x06, 0x11, 0x22, 0xC9] ≠ 0 ∧
    (s0.setCfg { Config.cfg0 with checkEn := false }).cfg.checkEn = false := by decide +kernel

theorem test_witness_ChunkYieldsWholeBodies :
    framerOk s0.cfg s0.fr = true ∧ framerOk s0.cfg ⟨.body, [0x03, 0x06, 0x11, 0x22]⟩ = true := by
  decide +kernel

/-- Payloads of the shortest and the longest length, in SCAN and SCAN_AA. -/
theorem test_witness_SingleFrameIsFound :
    s0.fr.state = .scan ∧ (s0.setFr ⟨.scanAA, []⟩).fr.state = .scanAA ∧
    Spec.lengthOk s0.cfg [0x06] ∧ Spec.lengthOk s0.cfg (List.replicate 64 0) := by
  unfold Spec.lengthOk; decide +kernel

theorem test_witness_CorruptedByteDropsFrameAndResyncs :
    (0x11 : Byte) ≠ 0x10 ∧ s0.cfg.checkEn = true ∧ s0.fr.state = .scan ∧
    Spec.lengthOk s0.cfg ([0x06] ++ 0x11 :: [0x22]) ∧
    Spec.lengthOk s0.cfg [0x06, 0x11, 0x22] := by
  unfold Spec.lengthOk; decide +kernel

theorem test_witness_BackToBackFramesAllYield :
    s0.fr = ⟨.scan, []⟩ ∧ ∀ p ∈ ([[0x06, 0x11, 0x22], [0x06, 0x11, 0x22]] : List Bytes),
      Spec.lengthOk s0.cfg p := by
  unfold Spec.lengthOk; decide +kernel

/-- The clauses: unknown id; a width that fails; a width one too large; a width that just fits. -/
theorem test_witness_HeaderIdSelectsOperation :
    regLookup Config.cfg0 0x63 = none ∧
    regLookup cfgVar 0x06 = some ⟨0x06, .current, .byRest .lengthByte⟩ ∧
    widthOf (.byRest .lengthByte) (([0x36] : Bytes).take 0) = none ∧
    regLookup Config.cfg0 0x06 = some ⟨0x06, .current, .fixed 2⟩ ∧
    (widthOf (.fixed 2) (([0x11, 0x36] : Bytes).take 1) = some 2 ∧ 2 - 1 < 2) ∧
    (widthOf (.fixed 2) (([0x11, 0x22, 0x36] : Bytes).take 2) = some 2 ∧ 2 ≤ 3 - 1) := by
  decide +kernel

theorem test_witness_SubpacketStepRunsDecodedOperation :
    (s0.setDpBuf [0x06, 0x11, 0x22, 0x36]).dpBuf = 0x06 :: [0x11, 0x22, 0x36] := by decide +kernel

/-- A body that just fits before the checksum byte. -/
theorem test_witness_DecodeReplacesRecordWhole :
    (Instr.spCurrent 0x06 2, RecType.current) ∈ Spec.decodes 0x06 2 ∧
    2 + 1 ≤ (s0.setDpBuf [0x11, 0x22, 0x36]).dpBuf.length ∧
    (Instr.spGpin 0x10 16, RecType.gpin) ∈ Spec.decodes 0x10 16 := by decide +kernel

/-- A body one byte too long. -/
theorem test_witness_DecodeThatDoesNotFitDropsRest :
    (Instr.spCurrent 0x06 2, RecType.current) ∈ Spec.decodes 0x06 2 ∧
    (s0.setDpBuf [0x11, 0x36]).dpBuf.length < 2 + 1 := by decide +kernel

/-- HW, CURRENT, CURRENT, as in V-DP-9; and a CURRENT whose width is read from its body, before the checksum
byte. -/
theorem test_witness_PassDecodesEverySubpacket :
    Spec.payloadOk s0.cfg [(⟨0x0A, .hw, .fixed 4⟩, [4, 0, 1, 0]),
      (⟨0x06, .current, .fixed 2⟩, [0x99, 0x88]), (⟨0x06, .current, .fixed 2⟩, [0x12, 0x34])] [] ∧
    Spec.payloadOk cfgVar [(⟨0x06, .current, .byRest .lengthByte⟩, [0x01, 0x22])] [] := by
  simp only [Spec.payloadOk]; decide +kernel

/-- CURRENT and then the unknown id 63, as in V-DP-6; with a width read from the body; and nothing after the
id. -/
theorem test_witness_UnknownIdSacrificesWhatFollows :
    (Spec.payloadOk s0.cfg [(⟨0x06, .current, .fixed 2⟩, [0x33, 0x44])]
      (0x63 :: [0x01, 0x02, 0x06, 0x55, 0x66]) ∧ regLookup s0.cfg 0x63 = none) ∧
    (Spec.payloadOk cfgVar [(⟨0x06, .current, .byRest .lengthByte⟩, [0x01, 0x22])] (0x63 :: []) ∧
      regLookup cfgVar 0x63 = none) := by
  simp only [Spec.payloadOk]; decide +kernel

/-- A pass over a sub-packet whose width is read from its body: it is stored whole, length byte included
(R163, R165). -/
theorem test_dpPass_variable :
    look (fun t => (t.recs.current, t.trace)) (.dpPass [0x03, 0x06, 0x01, 0x22, 0x26])
      (s0.setCfg cfgVar) = some (some [0x01, 0x22], [.notify (.record .current)]) := by
  decide +kernel

/-- CORE and TIME updated with F2's body stored; and a set without CORE. -/
theorem test_witness_EndOfPassIntegratesThenNotifies :
    configValid s0.cfg = true ∧
    (∀ id ∈ ([0x01, 0x08] : Bytes), (regLookup s0.cfg id).isSome = true) ∧
    (s0.cfg.idCore = some 0x01 ∧ (0x01 : Byte) ∈ ([0x01, 0x08] : Bytes)) ∧
    Spec.fieldAt coreF2 s0.cfg.offTs 1020 ∧ Spec.fieldAt coreF2 s0.cfg.offEncL 10 ∧
    Spec.fieldAt coreF2 s0.cfg.offEncR 90 ∧
    (∀ id ∈ ([0x08] : Bytes), s0.cfg.idCore ≠ some id) := by
  refine ⟨by decide +kernel, by decide +kernel, by decide +kernel, ?_, ?_, ?_, by decide +kernel⟩
  · exact ⟨0xFC, 0x03, by decide +kernel, by decide +kernel, by decide +kernel⟩
  · exact ⟨0x0A, 0x00, by decide +kernel, by decide +kernel, by decide +kernel⟩
  · exact ⟨0x5A, 0x00, by decide +kernel, by decide +kernel, by decide +kernel⟩

/-- One step of V-DP-1. -/
theorem test_witness_LoopLeavesRegistryIds :
    (s0.setDpBuf [0x06, 0x11, 0x22, 0x36]).upd = [] ∧
    (∀ j < 1, 1 < (subStep^[j] (s0.setDpBuf [0x06, 0x11, 0x22, 0x36])).dpBuf.length) ∧
    (subStep^[1] (s0.setDpBuf [0x06, 0x11, 0x22, 0x36])).upd = [0x06] := by decide +kernel

theorem test_witness_PassEmitsEachPulseOnce : configValid s0.cfg = true := by decide +kernel

/-- Seeded and unseeded wheels. -/
theorem test_witness_PositionAccumulatesSignedDelta :
    s0.cfg.numerics = .exact ∧ s0.odo.left.init = false ∧ odo3.left.init = true := by
  decide +kernel

/-- The premise of the exact clauses; the others have none. -/
theorem test_witness_TicksSeedAndFollow : s0.cfg.numerics = .exact := by decide +kernel

/-- A stale time stamp and a new one, from `odo3`. -/
theorem test_witness_VelocityGuardsStaleTimeStamp :
    s0.cfg.numerics = .exact ∧ (1020 : Word16) = (s0.setOdo odo3).odo.lastTimestamp ∧
    (1021 : Word16) ≠ (s0.setOdo odo3).odo.lastTimestamp := by decide +kernel

/-- V-OD-3's update, with both kinematics, and V-OD-4's stale one. -/
theorem test_witness_PoseFollowsKinematics :
    s0.cfg.numerics = .exact ∧ s0.cfg.wheelbase ≠ 0 ∧ s0.cfg.fk = .firstOrder ∧
    (1 / 25 : Rat) =
      ((if odo2.left.init then Spec.sdiff16 10 odo2.left.lastTick else 0 : Int) : Rat) *
        s0.cfg.tickToRad ∧
    (-1 / 40 : Rat) =
      ((if odo2.right.init then Spec.sdiff16 90 odo2.right.lastTick else 0 : Int) : Rat) *
        s0.cfg.tickToRad ∧
    (1 / 50 : Rat) = (Spec.sdiff16 1020 odo2.lastTimestamp : Rat) / 1000 ∧
    (1020 : Word16) ≠ odo2.lastTimestamp ∧ (1020 : Word16) = odo3.lastTimestamp ∧
    ({ Config.cfg0 with fk := .other 0 } : Config).fk = .other 0 := by decide +kernel

/-- The clauses: nothing written, a record that is not CORE, CORE with its views. -/
theorem test_witness_RecordAccessorAnswersCopy :
    recGet s0.recs .hw = none ∧ RecType.hw ≠ .core ∧
    recGet { Records.reset with hw := some [4, 0, 1, 0] } .hw = some [4, 0, 1, 0] ∧
    (s0.setRecs { Records.reset with core := some coreF2 }).recs.core = some coreF2 ∧
    Spec.fieldAt coreF2 s0.cfg.offTs 1020 := by
  refine ⟨by decide +kernel, by decide +kernel, by decide +kernel, by decide +kernel, ?_⟩
  exact ⟨0xFC, 0x03, by decide +kernel, by decide +kernel, by decide +kernel⟩

theorem test_witness_EncodedCommandPassesFramer :
    s0.fr.state = .scan ∧ s0.cfg.lenMin ≤ 5 ∧ 5 ≤ s0.cfg.lenMax ∧
    5 ≤ ({ Config.cfg0 with lenMin := 5, lenMax := 5 } : Config).lenMax := by decide +kernel

/-- An exact tie. -/
theorem test_witness_RoundIsNearestTiesAway :
    2 * |(1 / 2 : Rat) - (roundNum .tiesAway (1 / 2) : Rat)| = 1 := by
  have : roundNum .tiesAway (1 / 2) = 1 := by decide +kernel
  rw [this]; norm_num

/-- V-CE-2 row 6; the largest speed and the smallest radius that fit; the first of each that do not. -/
theorem test_witness_VelocityRequestDerivesSpeedAndRadius :
    s0.cfg.numerics = .exact ∧
    (roundNum s0.cfg.rounding ((1 / 2 : Rat) * 1000 / 1) = 500 ∧
      roundNum s0.cfg.rounding (1000 * max ((1 / 2 : Rat) + s0.cfg.wheelbase * 1 / 2)
        ((1 / 2 : Rat) - s0.cfg.wheelbase * 1 / 2)) = 615) ∧
    roundNum s0.cfg.rounding (1000 * max ((32767 / 1000 : Rat) + s0.cfg.wheelbase * 0 / 2)
        ((32767 / 1000 : Rat) - s0.cfg.wheelbase * 0 / 2)) = 32767 ∧
    roundNum s0.cfg.rounding ((-32768 / 1000 : Rat) * 1000 / 1) = -32768 ∧
    roundNum s0.cfg.rounding (1000 * max ((32768 / 1000 : Rat) + s0.cfg.wheelbase * 0 / 2)
        ((32768 / 1000 : Rat) - s0.cfg.wheelbase * 0 / 2)) = 32768 ∧
    roundNum s0.cfg.rounding ((-32769 / 1000 : Rat) * 1000 / 1) = -32769 := by decide +kernel

/-- A request at the limit and one beyond it. -/
theorem test_witness_VelocityRequestPulsesOrReports :
    (speedOf s0.cfg (32767 / 1000) 0 = 32767 ∧ radiusOf s0.cfg (32767 / 1000) 0 = 0) ∧
    speedOf s0.cfg (32768 / 1000) 0 = 32768 ∧
    radiusOf s0.cfg (-32768 / 1000) 1 = -32768 ∧ radiusOf s0.cfg (-32769 / 1000) 1 = -32769 := by
  decide +kernel

/-- The longest payload that is sent, and the shortest that is not. -/
theorem test_witness_GenericCommandIsFramedAndMirrored :
    (List.replicate 255 (0 : Byte)).length ≤ 255 ∧ 255 < (List.replicate 256 (0 : Byte)).length := by
  decide +kernel

theorem test_witness_SerializationFailureSendsNothing :
    ∃ p : Bytes, some (List.replicate 256 0) = some p ∧ 255 < p.length :=
  ⟨List.replicate 256 0, rfl, by decide +kernel⟩

theorem test_witness_StopSendsZeroFrame :
    (s0.setEn .running).enState = .running ∧ s0.enState ≠ .running := by decide +kernel

theorem test_witness_IdleRefusesIteration : s0.enState = .idle := by decide +kernel

theorem test_witness_IterationIsUpdateThenPasses :
    (s0.setEn .running).enState ≠ .idle ∧ (s0.setEn .stopped).enState ≠ .idle := by decide +kernel

theorem test_witness_IterationSendsExactlyOneFrame :
    (s0.setEn .running).enState ≠ .idle ∧ (s0.setEn .stopped).enState ≠ .idle := by decide +kernel

theorem test_witness_IterationFrame : s0.dpBuf = [] ∧ s0.upd = [] := by decide +kernel

theorem test_witness_StepRunsOldestOperation :
    configValid s0.cfg = true ∧ (s0.setQueue [.run]).queue = .run :: [] := by decide +kernel

theorem test_witness_StepWithoutRequestDoesNothing :
    configValid s0.cfg = true ∧ s0.queue = [] := by decide +kernel

theorem test_witness_InvalidConfigurationTakesNoStep :
    configValid (s0.setCfg { Config.cfg0 with wheelbase := 0 }).cfg = false := by decide +kernel

/-- Distinct ids; that each listed condition occurs is `test_construction_checks`. -/
theorem test_witness_ConstructionFailsExactlyWhenListed :
    (Config.cfg0.reg.map (·.id)).Nodup ∧
    (({ Config.cfg0 with reg := ⟨0x09, .ir, .fixed 1⟩ :: Config.cfg0.reg } : Config).reg.map
      (·.id)).Nodup := by decide +kernel

theorem test_witness_MissingParameterFailsConstruction :
    { configParams Config.cfg0 with lenMin := none }.lenMin = none ∧
    { configParams Config.cfg0 with fk := none }.fk = none := by decide +kernel

/-- An unseeded machine whose `last_tick` is not 0 meets the clause about odometry (R45). -/
theorem test_inv_last_tick :
    odometryOk (s0.setOdo { Odometry.reset with left := ⟨false, 7, 0, 0, 0⟩ }) = true ∧
    odometryOk (s0.setOdo { Odometry.reset with left := ⟨false, 7, 1, 0, 0⟩ }) = false := by
  decide +kernel

/-- An iteration asked for in a running machine. -/
theorem test_witness_EveryStepKeepsInvariant :
    Inv { s0 with enState := .running, queue := [.iter fc] } ∧
    (match step { s0 with enState := .running, queue := [.iter fc] } with
      | .next _ => true
      | _ => false) = true := by
  refine ⟨⟨?_, ?_, ?_, ?_, ?_, ?_, ?_⟩, ?_⟩ <;> decide +kernel

theorem test_witness_ConfigurationIsReadOnly : (run .run s0).isSome = true := by decide +kernel

theorem test_witness_OnlyCommandEventsWritePair :
    look State.cmd (.setVel (1 / 2) 0) s0 = some ⟨500, 0⟩ ∧ s0.cmd ≠ ⟨500, 0⟩ ∧
    look State.cmd (.generic (.baseControl 1 2) (some [])) s0 = some ⟨1, 2⟩ := by decide +kernel

theorem test_witness_OnlyRunAndStopMoveEngine :
    look State.enState .run s0 = some .running ∧ s0.enState ≠ .running ∧
    look State.enState .stop (s0.setEn .running) = some .stopped := by decide +kernel

theorem test_witness_RecordsChangeOnlyByDecode :
    look (fun t => recGet t.recs .current) (.spCurrent 0x06 2) (s0.setDpBuf [0x11, 0x22, 0x36]) =
      some (some [0x11, 0x22]) ∧ recGet s0.recs .current ≠ some [0x11, 0x22] ∧
    look (fun t => recGet t.recs .current) (.dpPass [0x03, 0x06, 0x11, 0x22, 0x36]) s0 =
      some (some [0x11, 0x22]) ∧
    (recGet (s0.setRecs { Records.reset with core := some coreF2 }).recs .core).isSome = true := by
  decide +kernel

theorem test_witness_EveryTransmissionIsOneFrame : (run .stop s0).isSome = true := by
  decide +kernel

theorem test_witness_StimulusLineRoundTrip :
    (Instr.setVel (-5 / 4) (1 / 1000000000000000000)).writable = true ∧
    (Instr.dpPass [0x00, 0x00]).writable = true ∧ (Instr.spCore 0xFF 254).writable = true := by
  decide +kernel

/-- A generic payload of five bytes that does not begin with the velocity id, and the longest one. -/
theorem test_witness_CommandFrameRoundTrip :
    (([0x09, 0x02, 0x34, 0x12, 0x00] : Bytes).length ≤ 255 ∧
      ¬ (([0x09, 0x02, 0x34, 0x12, 0x00] : Bytes).length = 5 ∧
        ([0x09, 0x02, 0x34, 0x12, 0x00] : Bytes).head? = some 0x01)) ∧
    (List.replicate 255 (0x01 : Byte)).length ≤ 255 ∧
    ¬ ((List.replicate 255 (0x01 : Byte)).length = 5) := by decide +kernel

end Sys2Proof.Tests
end

section
/-! The header id selects the operation (R101): `selectSub` once per branch, and the decodes of the table. -/

namespace Sys2Proof.Machine

/-! ### `selectSub`, an equation per case -/

section
variable {c : Config} {id : Byte} {rest : Bytes}

theorem selectSub_of_not_registered (h : regLookup c id = none) :
    selectSub c id rest = .unknown id := by
  simp only [selectSub, h]

theorem selectSub_of_width_fails {e : RegEntry} (he : regLookup c id = some e)
    (hw : widthOf e.width (rest.take (rest.length - Config.csLen)) = none) :
    selectSub c id rest = .trunc id := by
  simp only [selectSub, he, hw]

theorem selectSub_of_width {e : RegEntry} {w : Nat} (he : regLookup c id = some e)
    (hw : widthOf e.width (rest.take (rest.length - Config.csLen)) = some w) :
    selectSub c id rest =
      if w ≤ rest.length - Config.csLen then .decode e.type id w else .trunc id := by
  simp only [selectSub, he, hw]

end

/-! ### What a header id decodes to -/

@[simp] theorem decodeHeader_cons (c : Config) (id : Byte) (rest : Bytes) :
    decodeHeader c (id :: rest) = some (subInstr (selectSub c id rest)) := rfl

/-- The decode of each record type is the row of R101 with that type. -/
theorem decodeInstr_mem_decodes (t : RecType) (id : Byte) (w : Nat) :
    (decodeInstr t id w, t) ∈ Spec.decodes id w := by
  cases t <;> simp [decodeInstr, Spec.decodes]

/-- Settles O10, by the branches of `selectSub`: unknown id, failing width, width that does not fit, decode. -/
theorem headerIdSelectsOperation : Obligations.HeaderIdSelectsOperation := by
  intro c id rest
  refine ⟨fun hnone => ?_, fun e he => ⟨fun hfail => ?_, fun w hw => ?_⟩⟩
  · rw [decodeHeader_cons, selectSub_of_not_registered hnone]; rfl
  · rw [decodeHeader_cons, selectSub_of_width_fails he hfail]; rfl
  · rw [decodeHeader_cons, selectSub_of_width he hw]
    constructor
    · intro hlong
      rw [if_neg (Nat.not_le.2 hlong)]; rfl
    · intro hfits
      rw [if_pos hfits]
      exact ⟨_, rfl, decodeInstr_mem_decodes e.type id w⟩

end Sys2Proof.Machine
end

section
/-! The nine bytes of a velocity frame (R110, R242). -/

namespace Sys2Proof.Machine

/-- The low byte of a 16-bit quantity goes first and the high byte second (R8, R64). -/
theorem le16_bytes (v : Word16) : ∃ lo hi : Byte,
    le16 v = [lo, hi] ∧ lo.toNat = v.toNat % 256 ∧ hi.toNat = v.toNat / 256 := by
  have hv := v.isLt
  refine ⟨_, _, le16_eq v, ?_, ?_⟩ <;> rw [BitVec.toNat_ofNat] <;> omega

/-- The rows of R110 around the bytes of the two operands; the checksum byte closes length and payload (R91). -/
theorem velFrame_bytes {speed radius : Word16} {s0 s1 r0 r1 : Byte}
    (hs : le16 speed = [s0, s1]) (hr : le16 radius = [r0, r1]) :
    velFrame speed radius =
      [0xAA, 0x55, 0x05, 0x01, s0, s1, r0, r1, xor8 [0x05, 0x01, s0, s1, r0, r1]] := by
  simp only [velFrame, velPayload, hs, hr]
  rfl

/-- `CE.VELFRAME` leaves its frame in the model's `result` and writes nothing else (R242, log 4). -/
theorem exec_ceVelframe (speed radius : Word16) (s : State) :
    exec (.ceVelframe speed radius) s =
      .next { s with result := .encoded (velFrame speed radius) } := rfl

/-- Settles O30: the frame is written around the two byte pairs of its operands. -/
theorem velocityFrameHasNineBytes : Obligations.VelocityFrameHasNineBytes := by
  intro speed radius s
  obtain ⟨s0, s1, hs, hs0, hs1⟩ := le16_bytes speed
  obtain ⟨r0, r1, hr, hr0, hr1⟩ := le16_bytes radius
  refine ⟨s0, s1, r0, r1, hs0, hs1, hr0, hr1, ?_⟩
  rw [exec_ceVelframe, velFrame_bytes hs hr]

end Sys2Proof.Machine
end

section
/-! One byte of the Framer (R130, R133 to R135): `frameByte` once per branch, and `FR.BYTE` through it. -/

namespace Sys2Proof.Machine

/-! ### `FR.BYTE` and the acceptance predicate -/

/-- `FR.BYTE` leaves the state of its byte step, with the yield in the model's `result` (log 4). -/
theorem exec_frByte_of_frameByte {b : Byte} {s t : State} {y : Option Bytes}
    (h : frameByte b s = (t, y)) :
    exec (.frByte b) s = .next (t.setResult (byteResult y)) := by
  simp only [exec, execFrByte, h]

/-- The acceptance predicate: the checksum is not checked, or is zero over the whole framed body (R136). -/
theorem accepts_iff (c : Config) (body : Bytes) :
    accepts c body = true ↔ c.checkEn = false ∨ xor8 body = 0 := by
  simp [accepts]

/-! ### `frameByte`, an equation per branch -/

/-- The byte step in SCAN (R130). -/
theorem frameByte_scan (b : Byte) {s : State} (hs : s.fr.state = .scan) :
    frameByte b s = (s.setFr ⟨if b = Config.stx0 then .scanAA else .scan, s.fr.buf⟩, none) := by
  simp only [frameByte, hs, byteScan]

section
variable {b l : Byte} {got : Bytes} {s : State}

/-- A byte of a candidate that does not complete it is stored at its end (R133). -/
theorem frameByte_stored (hs : s.fr = ⟨.body, l :: got⟩) (hlen : got.length < l.toNat) :
    frameByte b s = (s.setFr ⟨.body, l :: (got ++ [b])⟩, none) := by
  have hshort : (bufPush (l :: got) b).length < candidateLen (l :: got) := by
    simp only [bufPush, candidateLen, List.length_append, List.length_cons, List.length_nil]
    omega
  simp only [frameByte, hs, byteBody, if_pos hshort]
  rfl

/-- The last byte of an accepted candidate yields it (R134). -/
theorem frameByte_last_accepted (hs : s.fr = ⟨.body, l :: got⟩) (hlen : got.length = l.toNat)
    (hacc : accepts s.cfg (l :: (got ++ [b])) = true) :
    frameByte b s = (s.setFr ⟨.scan, []⟩, some (l :: (got ++ [b]))) := by
  rw [frameByte_last b hs hlen, if_pos hacc]

/-- The last byte of a candidate that is not accepted drops it (R135). -/
theorem frameByte_last_dropped (hs : s.fr = ⟨.body, l :: got⟩) (hlen : got.length = l.toNat)
    (hacc : ¬ accepts s.cfg (l :: (got ++ [b])) = true) :
    frameByte b s = (s.setFr ⟨.scan, []⟩, none) := by
  rw [frameByte_last b hs hlen, if_neg hacc]

end

/-! ### The statements -/

/-- Settles O1: the byte step in SCAN, whose two branches differ in the Framer's state alone. -/
theorem scanByteHuntsForStart : Obligations.ScanByteHuntsForStart := by
  intro b s hs
  exact exec_frByte_of_frameByte (frameByte_scan b hs)

/-- Settles O4, by the branches of the byte step in BODY: stored, accepted, dropped. -/
theorem bodyByteStoresThenSettles : Obligations.BodyByteStoresThenSettles := by
  intro b l got s hs
  refine ⟨fun hlt => ?_, fun hlen hacc => ?_, fun hlen hcheck hxor => ?_⟩
  · exact exec_frByte_of_frameByte (frameByte_stored hs hlt)
  · exact exec_frByte_of_frameByte
      (frameByte_last_accepted hs hlen ((accepts_iff s.cfg _).2 hacc))
  · have hrejected : ¬ accepts s.cfg (l :: (got ++ [b])) = true := by
      rw [accepts_iff, hcheck]
      exact not_or_intro (by decide) hxor
    exact exec_frByte_of_frameByte (frameByte_last_dropped hs hlen hrejected)

end Sys2Proof.Machine
end

section
/-! The Dispatcher's operations (R160, R161, R163, R180): a decode that fits, an unknown id, a whole pass. -/

namespace Sys2Proof.Machine

/-! ### The decodes -/

/-- A row of R101 is the decode of its record type. -/
theorem eq_decodeInstr_of_mem_decodes {i : Instr} {t : RecType} {id : Byte} {w : Nat}
    (h : (i, t) ∈ Spec.decodes id w) : i = decodeInstr t id w := by
  simp only [Spec.decodes, List.mem_cons, Prod.mk.injEq, List.not_mem_nil, or_false] at h
  rcases h with ⟨rfl, rfl⟩ | ⟨rfl, rfl⟩ | ⟨rfl, rfl⟩ | ⟨rfl, rfl⟩ | ⟨rfl, rfl⟩ | ⟨rfl, rfl⟩ |
    ⟨rfl, rfl⟩ | ⟨rfl, rfl⟩ | ⟨rfl, rfl⟩ | ⟨rfl, rfl⟩ | ⟨rfl, rfl⟩ | ⟨rfl, rfl⟩ | ⟨rfl, rfl⟩ <;> rfl

/-- Each of the thirteen operations is the common decode form at its record type (R166 to R178). -/
theorem exec_of_mem_decodes {i : Instr} {t : RecType} {id : Byte} {w : Nat}
    (h : (i, t) ∈ Spec.decodes id w) (s : State) : exec i s = .next (decodeRecord t id w s) := by
  rw [eq_decodeInstr_of_mem_decodes h]
  exact exec_subInstr (.decode t id w) s

/-- A body that fits before the checksum byte is stored (R163). -/
theorem decodeRecord_of_fits {t : RecType} {id : Byte} {w : Nat} {s : State}
    (h : w + 1 ≤ s.dpBuf.length) :
    decodeRecord t id w s =
      { s with
        dpBuf := s.dpBuf.drop w
        recs := recSet s.recs t (s.dpBuf.take w)
        upd := setInsert id s.upd } :=
  if_pos h

/-- Settles O12: every decode that fits is the one store of R163; what it stores is read by the laws of
the records and of the set of ids. -/
theorem decodeReplacesRecordWhole : Obligations.DecodeReplacesRecordWhole := by
  intro id w s i t hi hfits
  refine ⟨_, exec_of_mem_decodes hi s, ?_⟩
  rw [decodeRecord_of_fits hfits]
  exact ⟨recGet_recSet_same s.recs t _, fun _ hu => recGet_recSet_other s.recs hu _, rfl,
    fun x => mem_setInsert x id s.upd, setInsert_ascending id, rfl⟩

/-! ### An unknown id -/

/-- Settles O14: the error it raises writes the buffer alone. -/
theorem unknownIdDropsRest : Obligations.UnknownIdDropsRest := by
  intro id s
  calc exec (.spUnknown id) s = .next (dropRest s) := exec_subInstr (.unknown id) s
    _ = .next { s with dpBuf := [] } := by rw [dropRest_eq]; rfl

/-! ### A pass -/

/-- A pass is the end of pass on what the loop leaves, the rest of the buffer dropped (R160, R161). -/
theorem exec_dpPass_cons (l : Byte) (rest : Bytes) (s : State) :
    exec (.dpPass (l :: rest)) s =
      exec .dpNotify
        { passLoop rest.length { s with dpBuf := rest, upd := [] } with dpBuf := [] } := rfl

/-- Settles O16: the loop is iterated sub-packet steps, and the length of the buffer is fuel enough for it
to end. -/
theorem passLoopsThenNotifies : Obligations.PassLoopsThenNotifies := by
  intro l rest s
  obtain ⟨k, hk, hmore⟩ := passLoop_iterate rest.length { s with dpBuf := rest, upd := [] }
  have hend : (passLoop rest.length { s with dpBuf := rest, upd := [] }).dpBuf.length ≤ 1 :=
    passLoop_ends rest.length le_rfl
  have hpass := exec_dpPass_cons l rest s
  rw [hk] at hend hpass
  exact ⟨k, _, hmore, hend, rfl, hpass⟩

end Sys2Proof.Machine
end

section
/-! One wheel through an odometry update (R201 to R203, R205, R206): the exact arithmetic, then each register. -/

namespace Sys2Proof.Machine

/-! ### The exact number system (R10) -/

@[simp] theorem numAdd_exact (a b : Rat) : numAdd .exact a b = a + b := rfl

@[simp] theorem numMul_exact (a b : Rat) : numMul .exact a b = a * b := rfl

/-- A divisor other than zero leaves nothing free (log 11). -/
theorem numDiv_exact_of_ne_zero (a : Rat) {b : Rat} (hb : b ≠ 0) : numDiv .exact a b = a / b :=
  if_neg hb

/-! ### The parts of an update on exact numbers -/

section
variable {c : Config} (hexact : c.numerics = .exact)
include hexact

/-- A wheel's angle is its delta times the angle of a tick (R203), the delta zero when unseeded (R201). -/
theorem wheelAngle_tickDelta_exact (cur : Word16) (w : Wheel) :
    wheelAngle c (tickDelta cur w) =
      ((if w.init then Spec.sdiff16 cur w.lastTick else 0 : Int) : Rat) * c.tickToRad := by
  rw [wheelAngle, hexact, numMul_exact, tickDelta_eq]

/-- The elapsed seconds are the thousandth part of the signed difference of the time stamps (R205). -/
theorem elapsed_exact (ts last : Word16) :
    elapsed c ts last = (Spec.sdiff16 ts last : Rat) / 1000 := by
  rw [elapsed, hexact, numDiv_exact_of_ne_zero _ (by norm_num), sdiff16_eq]

theorem wheelUpdate_lastRad_exact (ts last cur : Word16) (w : Wheel) :
    (wheelUpdate c ts last cur w).lastRad =
      w.lastRad +
        ((if w.init then Spec.sdiff16 cur w.lastTick else 0 : Int) : Rat) * c.tickToRad := by
  rw [← wheelAngle_tickDelta_exact hexact]
  simp only [wheelUpdate, hexact, numAdd_exact]

/-- A fresh time stamp differs from the last one, so the elapsed time divides (R205, R206). -/
theorem wheelUpdate_lastVelocity_exact {ts last : Word16} (hfresh : ts ≠ last) (cur : Word16)
    (w : Wheel) :
    (wheelUpdate c ts last cur w).lastVelocity =
      ((if w.init then Spec.sdiff16 cur w.lastTick else 0 : Int) : Rat) * c.tickToRad /
        ((Spec.sdiff16 ts last : Rat) / 1000) := by
  have hdiff : (Spec.sdiff16 ts last : Rat) ≠ 0 := Int.cast_ne_zero.2 (sdiff16_ne_zero hfresh)
  have helapsed : (Spec.sdiff16 ts last : Rat) / 1000 ≠ 0 := div_ne_zero hdiff (by norm_num)
  simp only [wheelUpdate, wheelVelocity, if_neg hfresh]
  rw [wheelAngle_tickDelta_exact hexact, elapsed_exact hexact, hexact,
    numDiv_exact_of_ne_zero _ helapsed]

end

/-! ### The guard of the time stamp, in every number system (D7) -/

section
variable (c : Config) (el er : Word16)

/-- A stale time stamp gives zero velocity (R206). -/
theorem wheelUpdate_lastVelocity_stale (last cur : Word16) (w : Wheel) :
    (wheelUpdate c last last cur w).lastVelocity = 0 := if_pos rfl

/-- The last time stamp is always this update's own, stale or not (R205). -/
@[simp] theorem odoUpdate_lastTimestamp (ts : Word16) (o : Odometry) :
    (odoUpdate c ts el er o).lastTimestamp = ts := by
  simp only [odoUpdate]
  split
  · next hstale => exact hstale.symm
  · rfl

theorem odoUpdate_lastDiffTime_stale (o : Odometry) :
    (odoUpdate c o.lastTimestamp el er o).lastDiffTime = o.lastDiffTime := if_pos rfl

theorem odoUpdate_lastDiffTime_fresh {ts : Word16} {o : Odometry} (hfresh : ts ≠ o.lastTimestamp) :
    (odoUpdate c ts el er o).lastDiffTime = elapsed c ts o.lastTimestamp := if_neg hfresh

end

/-! ### The statements -/

/-- `OD.UPDATE` writes the odometry registers as `odoUpdate` gives them (R200, R209). -/
theorem exec_odUpdate (ts el er : Word16) (s : State) :
    exec (.odUpdate ts el er) s = .next (s.setOdo (odoUpdate s.cfg ts el er s.odo)) := rfl

/-- Settles O23: the position of each wheel after its own update. -/
theorem positionAccumulatesSignedDelta : Obligations.PositionAccumulatesSignedDelta := by
  intro ts el er s hexact
  exact ⟨_, exec_odUpdate ts el er s,
    wheelUpdate_lastRad_exact hexact ts s.odo.lastTimestamp el s.odo.left,
    wheelUpdate_lastRad_exact hexact ts s.odo.lastTimestamp er s.odo.right⟩

/-- Settles O25, by the guard: a stale time stamp, then a fresh one, whose elapsed time is not zero. -/
theorem velocityGuardsStaleTimeStamp : Obligations.VelocityGuardsStaleTimeStamp := by
  intro ts el er s
  refine ⟨_, exec_odUpdate ts el er s, fun hstale => ?_, fun hfresh => ?_⟩
  · subst hstale
    exact ⟨wheelUpdate_lastVelocity_stale .., wheelUpdate_lastVelocity_stale ..,
      odoUpdate_lastTimestamp .., odoUpdate_lastDiffTime_stale ..⟩
  · refine ⟨odoUpdate_lastTimestamp .., fun hexact => ⟨?_, ?_, ?_⟩⟩
    · exact (odoUpdate_lastDiffTime_fresh s.cfg el er hfresh).trans (elapsed_exact hexact ..)
    · exact wheelUpdate_lastVelocity_exact hexact hfresh el s.odo.left
    · exact wheelUpdate_lastVelocity_exact hexact hfresh er s.odo.right

end Sys2Proof.Machine
end

section
/-! What a record accessor answers (R282): `recordAnswer` once per clause, and its frame. -/

namespace Sys2Proof.Machine

/-! ### `recordAnswer`, an equation per case -/

section
variable {t : RecType} {s : State} {body : Bytes}

theorem recordAnswer_of_not_written (h : recGet s.recs t = none) : recordAnswer t s = .noValue := by
  simp only [recordAnswer, h]

theorem recordAnswer_of_written (ht : t ≠ .core) (h : recGet s.recs t = some body) :
    recordAnswer t s = .record body := by
  cases t with
  | core => exact absurd rfl ht
  | _ => simp only [recordAnswer, h]

/-- The views are read from the body that is answered, at the offsets of R23. -/
theorem recordAnswer_core (h : s.recs.core = some body) :
    recordAnswer .core s =
      .coreRecord body (view16 s.freeCount body s.cfg.offTs) (view16 s.freeCount body s.cfg.offEncL)
        (view16 s.freeCount body s.cfg.offEncR) := by
  have hcore : recGet s.recs .core = some body := h
  have hbody : coreBody s.recs = body := by rw [coreBody, h, Option.getD_some]
  simp only [recordAnswer, hcore, coreTimeStamp, coreLeftEncoder, coreRightEncoder, hbody]

end

/-! ### The statement -/

/-- `GETREC` emits its answer and writes nothing else (R282). -/
theorem exec_getRec (t : RecType) (s : State) :
    exec (.getRec t) s = .next { s with trace := s.trace ++ [.answer (recordAnswer t s)] } := rfl

/-- Settles O29, by the clauses of `recordAnswer`; a view inside the body is its field, whatever the free
value is. -/
theorem recordAccessorAnswersCopy : Obligations.RecordAccessorAnswersCopy := by
  intro t s
  refine ⟨fun hnone => ?_, fun body ht hbody => ?_, fun body ht hbody => ?_⟩
  · rw [exec_getRec, recordAnswer_of_not_written hnone]
  · rw [exec_getRec, recordAnswer_of_written ht hbody]
  · subst ht
    refine ⟨_, _, _, fun _ => view16_field s.freeCount, fun _ => view16_field s.freeCount,
      fun _ => view16_field s.freeCount, ?_⟩
    rw [exec_getRec, recordAnswer_core hbody]

end Sys2Proof.Machine
end

section
/-! The start and length bytes (R131, R132), and what a chunk does (R138 to R144). -/

namespace Sys2Proof.Machine

/-! ### `frameByte` in SCAN_AA and LEN, an equation per branch -/

/-- The byte step in SCAN_AA, the buffer empty there (R28, R131). -/
theorem frameByte_scanAA (b : Byte) {s : State} (hs : s.fr = ⟨.scanAA, []⟩) :
    frameByte b s =
      (s.setFr ⟨if b = Config.stx1 then .len else if b = Config.stx0 then .scanAA else .scan, []⟩,
        none) := by
  simp only [frameByte, hs, byteScanAA, raise_framingReject]
  split
  · rfl
  · split <;> rfl

theorem lengthInRange_iff (c : Config) (b : Byte) :
    lengthInRange c b = true ↔ c.lenMin ≤ b.toNat ∧ b.toNat ≤ c.lenMax := by
  simp only [lengthInRange, Bool.and_eq_true, decide_eq_true_eq]

section
variable {b : Byte} {s : State} (hs : s.fr.state = .len)
include hs

/-- A length byte in range opens a candidate (R132). -/
theorem frameByte_len_inRange (hb : lengthInRange s.cfg b = true) :
    frameByte b s = (s.setFr ⟨.body, [b]⟩, none) := by
  simp only [frameByte, hs, byteLen, if_pos hb]

/-- A length byte out of range returns the Framer to SCAN (R132). -/
theorem frameByte_len_outOfRange (hb : ¬ lengthInRange s.cfg b = true) :
    frameByte b s = (s.setFr ⟨.scan, []⟩, none) := by
  simp only [frameByte, hs, byteLen, if_neg hb, raise_framingReject]

end

/-- Settles O2: the byte step in SCAN_AA, whose branches differ in the Framer's state alone. -/
theorem scanAAByteMatchesStart : Obligations.ScanAAByteMatchesStart := by
  intro b s hs
  exact exec_frByte_of_frameByte (frameByte_scanAA b hs)

/-- Settles O3, by the two branches of the byte step in LEN. -/
theorem lengthByteIsJudged : Obligations.LengthByteIsJudged := by
  intro b s hs
  refine ⟨fun hin => ?_, fun hout => ?_⟩
  · exact exec_frByte_of_frameByte (frameByte_len_inRange hs ((lengthInRange_iff _ _).2 hin))
  · have hrange : ¬ lengthInRange s.cfg b = true := by
      rw [lengthInRange_iff]
      omega
    exact exec_frByte_of_frameByte (frameByte_len_outOfRange hs hrange)

/-! ### `FR.UPDATE` through `frameBytes` -/

/-- `FR.UPDATE` leaves the state of its chunk, with the bodies in the model's `result` (R138, log 4). -/
theorem exec_frUpdate_of_frameBytes {bytes : Bytes} {s t : State} {bodies : List Bytes}
    (h : frameBytes bytes s = (t, bodies)) :
    exec (.frUpdate bytes) s = .next (t.setResult (.frames bodies)) := by
  simp only [exec, execFrUpdate, h]

/-- Settles O5: a chunk runs over a concatenation part by part, and does not read the result register. -/
theorem chunkingDoesNotMatter : Obligations.ChunkingDoesNotMatter := by
  intro xs ys s
  refine ⟨_, _, _, _, rfl, rfl, rfl, rfl, ?_⟩
  rw [exec_frUpdate_of_frameBytes (frameBytes_append xs ys s), frameBytes_setResult]
  rfl

/-- Settles O6: the chunk's frame, its invariant and its yield, each by the law of `frameBytes`. -/
theorem chunkYieldsWholeBodies : Obligations.ChunkYieldsWholeBodies := by
  intro bytes s hs
  refine ⟨_, (frameBytes bytes s).2, exec_frUpdate_of_frameBytes rfl, ?_,
    frameBytes_framerOk bytes hs, fun body hbody => ?_⟩
  · rw [frameBytes_state]
    rfl
  · obtain ⟨l, rest, rfl, hlen, hrange, hacc⟩ := frameBytes_yield hs hbody
    obtain ⟨hmin, hmax⟩ := (lengthInRange_iff _ _).1 hrange
    exact ⟨l, rest, rfl, hlen, hmin, hmax, fun hcheck =>
      ((accepts_iff _ _).1 hacc).resolve_left (by simp [hcheck])⟩

/-! ### Whole frames -/

/-- Settles O7: the chunk of one frame. -/
theorem singleFrameIsFound : Obligations.SingleFrameIsFound := by
  intro p s hs hp
  exact exec_frUpdate_of_frameBytes (frameBytes_wireFrame hs hp)

theorem xor8_singleton (b : Byte) : xor8 [b] = b := BitVec.xor_zero

/-- A body with one byte changed against the one its checksum closes is not accepted (R136, R143). -/
theorem not_accepts_of_changed {c : Config} (hcheck : c.checkEn = true) (l : Byte) (p q : Bytes)
    {x y : Byte} (h : x ≠ y) :
    ¬ accepts c (l :: ((p ++ y :: q) ++ [xor8 (l :: (p ++ x :: q))])) = true := by
  rw [accepts_iff, hcheck]
  refine not_or_intro (by decide) fun hzero => xor8_changed (l :: p) q h ?_
  rw [← List.cons_append, xor8_append (l :: _), xor8_singleton] at hzero
  exact (BitVec.xor_eq_zero_iff.1 hzero).symm

/-- A candidate with one payload byte changed is dropped (R135, R143). -/
theorem frameBytes_corrupted {s : State} {p q : Bytes} {x y : Byte} (h : x ≠ y)
    (hcheck : s.cfg.checkEn = true) (hs : s.fr.state = .scan ∨ s.fr.state = .scanAA)
    (hlen : Spec.lengthOk s.cfg (p ++ x :: q)) :
    frameBytes ([0xAA, 0x55, BitVec.ofNat 8 (p ++ x :: q).length] ++ (p ++ y :: q) ++
        [xor8 (BitVec.ofNat 8 (p ++ x :: q).length :: (p ++ x :: q))]) s =
      (s.setFr ⟨.scan, []⟩, []) := by
  obtain ⟨hrange, hsize⟩ := lengthInRange_ofNat hlen
  have hsame : (p ++ y :: q).length = (p ++ x :: q).length := by
    simp only [List.length_append, List.length_cons]
  have hdrop := frameBytes_candidate (c := xor8 (BitVec.ofNat 8 (p ++ x :: q).length :: (p ++ x :: q)))
    hs (hsame.trans hsize) hrange
  rwa [if_neg (not_accepts_of_changed hcheck _ p q h)] at hdrop

/-- Settles O8: the corrupted candidate leaves the Framer in SCAN, where the genuine frame is found. -/
theorem corruptedByteDropsFrameAndResyncs : Obligations.CorruptedByteDropsFrameAndResyncs := by
  intro p q r x y s hxy hcheck hs hlen hr
  have hgenuine := frameBytes_wireFrame (s := s.setFr ⟨.scan, []⟩) (.inl rfl) hr
  refine exec_frUpdate_of_frameBytes (t := s.setFr ⟨.scan, []⟩) ?_
  rw [frameBytes_append, frameBytes_corrupted hxy hcheck hs hlen, hgenuine]
  rfl

/-- Settles O9: the chunk of frames back to back. -/
theorem backToBackFramesAllYield : Obligations.BackToBackFramesAllYield := by
  intro ps s hs hps
  exact exec_frUpdate_of_frameBytes (frameBytes_wireFrames ps hs hps)

end Sys2Proof.Machine
end

section
/-! Sub-packet steps, whole payloads and the end of a pass (R94, R162 to R165, R180 to R184, R310). -/

namespace Sys2Proof.Machine

/-! ### One sub-packet step -/

/-- The step over a popped header id (R162). -/
theorem subStep_cons {s : State} {id : Byte} {rest : Bytes} (hs : s.dpBuf = id :: rest) :
    subStep s = performSub (selectSub s.cfg id rest) (s.setDpBuf rest) := by
  simp only [subStep, hs]

/-- An id outside the Registry drops what follows it (R180). -/
theorem subStep_of_not_registered {s : State} {id : Byte} {rest : Bytes} (hs : s.dpBuf = id :: rest)
    (hid : regLookup s.cfg id = none) : subStep s = s.setDpBuf [] := by
  rw [subStep_cons hs, selectSub_of_not_registered hid]
  rfl

/-- A body that does not fit before the checksum byte drops the rest of the frame (log 12). -/
theorem decodeRecord_of_not_fits {t : RecType} {id : Byte} {w : Nat} {s : State}
    (h : s.dpBuf.length < w + 1) : decodeRecord t id w s = { s with dpBuf := [] } :=
  if_neg (Nat.not_le.2 h)

/-- Settles O11: the step performs the selected sub-packet operation, which `decodeHeader` names. -/
theorem subpacketStepRunsDecodedOperation : Obligations.SubpacketStepRunsDecodedOperation := by
  intro s id rest hs
  refine ⟨subInstr (selectSub s.cfg id rest), by rw [hs, decodeHeader_cons], ?_⟩
  rw [subStep_cons hs]
  exact exec_subInstr (selectSub s.cfg id rest) (s.setDpBuf rest)

/-- Settles O13: each of the thirteen decodes is the common form, whose other branch drops the rest. -/
theorem decodeThatDoesNotFitDropsRest : Obligations.DecodeThatDoesNotFitDropsRest := by
  intro id w s i t hi hshort
  rw [exec_of_mem_decodes hi, decodeRecord_of_not_fits hshort]

/-- Settles O15: the error it raises writes the buffer alone. -/
theorem truncatedSubpacketDropsRest : Obligations.TruncatedSubpacketDropsRest := by
  intro id s
  calc exec (.spTrunc id) s = .next (dropRest s) := exec_subInstr (.trunc id) s
    _ = .next { s with dpBuf := [] } := by rw [dropRest_eq]; rfl

/-! ### The loop of a pass -/

/-- The loop ends at once when at most the checksum byte is left (R161). -/
theorem passLoop_of_short (n : Nat) {s : State} (h : s.dpBuf.length ≤ Config.csLen) :
    passLoop n s = s := by
  cases n with
  | zero => rfl
  | succ n => exact if_neg (Nat.not_lt.2 h)

/-- A step that empties the buffer is the last one of the loop. -/
theorem passLoop_of_not_registered {s : State} {id b : Byte} {rest : Bytes} (n : Nat)
    (hs : s.dpBuf = id :: (rest ++ [b])) (hid : regLookup s.cfg id = none) :
    passLoop (n + 1) s = s.setDpBuf [] := by
  have hmore : Config.csLen < s.dpBuf.length := by
    rw [hs]
    simp only [List.length_cons, List.length_append, Config.csLen]
    omega
  rw [passLoop, if_pos hmore, subStep_of_not_registered hs hid]
  exact passLoop_of_short n (Nat.zero_le _)

/-- As many sub-packet steps as the loop takes are the loop (R161). -/
theorem passLoop_eq_iterate (k : Nat) {s : State}
    (h : ∀ j < k, Config.csLen < (subStep^[j] s).dpBuf.length) : passLoop k s = subStep^[k] s := by
  induction k generalizing s with
  | zero => rfl
  | succ k ih =>
    have hfirst : Config.csLen < s.dpBuf.length := h 0 k.succ_pos
    rw [passLoop, if_pos hfirst]
    exact ih fun j hj => h (j + 1) (Nat.succ_lt_succ hj)

/-- Settles O21: the steps taken are a loop, which leaves registered ids in ascending order. -/
theorem loopLeavesRegistryIds : Obligations.LoopLeavesRegistryIds := by
  intro s k hupd hmore
  rw [← passLoop_eq_iterate k hmore]
  have hstart : ascending s.upd := by
    rw [hupd]
    exact List.Pairwise.nil
  exact ⟨passLoop_ascending k hstart, passLoop_updated k hupd⟩

/-! ### Whole payloads -/

/-- A pass over decodable sub-packets goes on with what follows them, the last of which is the checksum
byte (R94, R163 to R165). -/
theorem exec_dpPass_payload (ps : List (RegEntry × Bytes)) (l : Byte) {tail : Bytes} {s : State}
    (hok : Spec.payloadOk s.cfg ps tail.dropLast) (ht : tail ≠ []) :
    exec (.dpPass (l :: (Spec.payloadOf ps ++ tail))) s =
      exec .dpNotify
        { passLoop tail.length
            { s with
              dpBuf := tail, upd := Spec.updAfter ps [], recs := Spec.recsAfter ps s.recs } with
          dpBuf := [] } := by
  rw [exec_dpPass_cons,
    passLoop_payload ps _ (s := { s with dpBuf := Spec.payloadOf ps ++ tail, upd := [] }) hok rfl ht
      le_rfl]
  rfl

/-- Settles O17: after the sub-packets only the checksum byte is left, and the loop ends. -/
theorem passDecodesEverySubpacket : Obligations.PassDecodesEverySubpacket := by
  intro ps l cs s hok
  refine ⟨_, rfl, ?_⟩
  rw [exec_dpPass_payload ps l hok (by simp), passLoop_of_short _ le_rfl]
  rfl

/-- Settles O18: after the sub-packets the unknown id drops what is left. -/
theorem unknownIdSacrificesWhatFollows : Obligations.UnknownIdSacrificesWhatFollows := by
  intro ps l id cs junk s hok hid
  have htail : (id :: (junk ++ [cs])).dropLast = id :: junk := by
    rw [← List.cons_append, List.dropLast_concat]
  refine ⟨_, rfl, ?_⟩
  rw [exec_dpPass_payload ps l (by rwa [htail]) (by simp)]
  have hdrop := passLoop_of_not_registered (junk ++ [cs]).length
    (s := { s with
      dpBuf := id :: (junk ++ [cs]), upd := Spec.updAfter ps [], recs := Spec.recsAfter ps s.recs })
    rfl hid
  rw [List.length_cons, hdrop]
  rfl

/-! ### The end of a pass -/

/-- `CORE` counts as decoded when the id that `ID_CORE` names is in the set (R182 step 1). -/
theorem coreUpdated_iff (c : Config) (u : List Byte) :
    coreUpdated c u = true ↔ ∃ id ∈ u, c.idCore = some id := by
  unfold coreUpdated
  split
  · next id hid => simp [hid, setHas_iff]
  · next hnone => simp [hnone]

theorem endOfPass_freeCount (s : State) :
    (endOfPass s).freeCount = if coreUpdated s.cfg s.upd then s.freeCount + 1 else s.freeCount := by
  unfold endOfPass notifyOdometry
  split <;> rfl

theorem endOfPass_trace (s : State) :
    (endOfPass s).trace = s.trace ++ pulsesOfAll s.cfg s.upd := by
  rw [endOfPass_state]
  rfl

/-- `DP.NOTIFY` is the end of pass (R182). -/
theorem exec_dpNotify (s : State) : exec .dpNotify s = .next (endOfPass s) := rfl

/-- `DP.PASS` is the pass (R160, R161). -/
theorem exec_dpPass (body : Bytes) (s : State) : exec (.dpPass body) s = .next (runPass body s) := rfl

/-- Settles O20: the end of pass writes what `endOfPass_state` says, and updates the odometry exactly when
CORE is in the set. -/
theorem endOfPassIntegratesThenNotifies : Obligations.EndOfPassIntegratesThenNotifies := by
  intro s
  refine ⟨_, exec_dpNotify s, ?_, fun hvalid hreg => ?_, fun hcore => ?_,
    fun id body hid hmem hbody => ?_⟩
  · rw [endOfPass_state]
    rfl
  · rw [endOfPass_trace]
    refine congrArg (s.trace ++ ·) (List.flatMap_congr fun id hid => ?_)
    obtain ⟨e, he⟩ := Option.isSome_iff_exists.1 (hreg id hid)
    simp only [pulsesOf, he, idCore_iff hvalid he]
  · have hno : ¬ coreUpdated s.cfg s.upd = true := by
      rw [coreUpdated_iff]
      exact fun ⟨id, hmem, hid⟩ => hcore id hmem hid
    rw [endOfPass_odo, endOfPass_freeCount, if_neg hno, if_neg hno]
    exact ⟨rfl, rfl⟩
  · have hyes : coreUpdated s.cfg s.upd = true := (coreUpdated_iff _ _).2 ⟨id, hmem, hid⟩
    have hcore : coreBody s.recs = body := by rw [coreBody, hbody, Option.getD_some]
    refine ⟨coreTimeStamp s, coreLeftEncoder s, coreRightEncoder s, _, fun v hv => ?_, fun v hv => ?_,
      fun v hv => ?_, exec_odUpdate _ _ _ s, ?_⟩
    · rw [coreTimeStamp, hcore, view16_field _ hv]
    · rw [coreLeftEncoder, hcore, view16_field _ hv]
    · rw [coreRightEncoder, hcore, view16_field _ hv]
    · rw [endOfPass_odo, if_pos hyes]
      rfl

/-! ### The frame and the outputs of a pass -/

/-- Settles O19: the frame of a pass. -/
theorem passTouchesOnlyDispatcherAndOdometry : Obligations.PassTouchesOnlyDispatcherAndOdometry := by
  intro body s
  exact ⟨_, exec_dpPass body s, runPass_state body s⟩

/-- A pulse belongs to one id: types are distinct in the Registry, and `ODOM` belongs to `ID_CORE` (R344). -/
theorem pulsesOf_disjoint {c : Config} (hvalid : configValid c = true) {a b : Byte} (hne : a ≠ b) :
    (pulsesOf c a).Disjoint (pulsesOf c b) := by
  intro o ha hb
  obtain ⟨e, he, hoe⟩ := mem_pulsesOf ha
  obtain ⟨f, hf, hof⟩ := mem_pulsesOf hb
  obtain ⟨hemem, heid⟩ := regLookup_mem he
  obtain ⟨hfmem, hfid⟩ := regLookup_mem hf
  rcases hoe with rfl | ⟨rfl, hca⟩ <;> rcases hof with hof | ⟨hof, hcb⟩
  · simp only [Output.notify.injEq, Pulse.record.injEq] at hof
    exact hne (by rw [← heid, ← hfid, entry_of_type hvalid hemem hfmem hof])
  · simp at hof
  · simp at hof
  · exact hne (Option.some.inj (hca.symm.trans hcb))

theorem pulsesOf_nodup (c : Config) (id : Byte) : (pulsesOf c id).Nodup := by
  unfold pulsesOf
  split
  · exact List.nodup_nil
  · split <;> simp

/-- The pulses of an ascending set are distinct (R164, R310). -/
theorem pulsesOfAll_nodup {c : Config} (hvalid : configValid c = true) {u : List Byte}
    (hu : ascending u) : (pulsesOfAll c u).Nodup :=
  List.nodup_flatMap.2 ⟨fun id _ => pulsesOf_nodup c id,
    hu.imp fun hlt => pulsesOf_disjoint hvalid fun heq => absurd (heq ▸ hlt) (lt_irrefl _)⟩

/-- What a pass emits are pulses (R182 step 2). -/
theorem pulsesOfAll_pulses (c : Config) (u : List Byte) :
    ∀ o ∈ pulsesOfAll c u, ∃ p, o = Output.notify p := by
  intro o ho
  obtain ⟨id, -, hid⟩ := List.mem_flatMap.1 ho
  obtain ⟨e, -, rfl | ⟨rfl, -⟩⟩ := mem_pulsesOf hid
  · exact ⟨_, rfl⟩
  · exact ⟨_, rfl⟩

/-- Settles O22: a pass emits the pulses of the ascending set its loop leaves. -/
theorem passEmitsEachPulseOnce : Obligations.PassEmitsEachPulseOnce := by
  intro body s hvalid
  exact ⟨_, _, exec_dpPass body s, runPass_trace body s,
    pulsesOfAll_nodup hvalid (passLoop_ascending _ List.Pairwise.nil), pulsesOfAll_pulses _ _⟩

end Sys2Proof.Machine
end

section
/-! Ticks, millimetres and the pose (R201, R202, R204, R207 to R209, R214), and the accessors that read registers. -/

namespace Sys2Proof.Machine

@[simp] theorem numSub_exact (a b : Rat) : numSub .exact a b = a - b := rfl

/-! ### The millimetre accumulators and the pose on exact numbers -/

section
variable {c : Config} (hexact : c.numerics = .exact)
include hexact

/-- The millimetres move by the wheel's tick delta (R204). -/
theorem wheelUpdate_lastMm_exact (ts last cur : Word16) (w : Wheel) :
    (wheelUpdate c ts last cur w).lastMm =
      w.lastMm + ((if w.init then Spec.sdiff16 cur w.lastTick else 0 : Int) : Rat) * c.tickToMm := by
  simp only [wheelUpdate, hexact, numAdd_exact, numMul_exact, tickDelta_eq]

/-- The first-order formula of R214; the guard of R344 keeps its divisor from zero. -/
theorem forwardKinematics_firstOrder_exact (hfk : c.fk = .firstOrder) (hbase : c.wheelbase ≠ 0)
    (al ar : Rat) :
    forwardKinematics c al ar =
      ⟨c.wheelRadius * (al + ar) / 2, 0, c.wheelRadius * (ar - al) / c.wheelbase⟩ := by
  simp only [forwardKinematics, hfk, hexact, numMul_exact, numAdd_exact, numSub_exact,
    numDiv_exact_of_ne_zero _ hbase, numDiv_exact_of_ne_zero _ (two_ne_zero (α := Rat))]

/-- On a fresh time stamp the pose rate is the pose delta over the elapsed seconds (R205, R208). -/
theorem poseRateOf_fresh_exact {ts last : Word16} (hfresh : ts ≠ last) (p : Triple) :
    poseRateOf c ts last p =
      ⟨p.x / ((Spec.sdiff16 ts last : Rat) / 1000), p.y / ((Spec.sdiff16 ts last : Rat) / 1000),
        p.theta / ((Spec.sdiff16 ts last : Rat) / 1000)⟩ := by
  have hdiff : (Spec.sdiff16 ts last : Rat) ≠ 0 := Int.cast_ne_zero.2 (sdiff16_ne_zero hfresh)
  have helapsed : (Spec.sdiff16 ts last : Rat) / 1000 ≠ 0 := div_ne_zero hdiff (by norm_num)
  simp only [poseRateOf, if_neg hfresh, elapsed_exact hexact, hexact,
    numDiv_exact_of_ne_zero _ helapsed]

/-- The pose delta is `CFG.FK` of the two wheel angles (R203, R207). -/
theorem odoUpdate_poseDelta_exact (ts el er : Word16) (o : Odometry) :
    (odoUpdate c ts el er o).poseDelta =
      forwardKinematics c
        (((if o.left.init then Spec.sdiff16 el o.left.lastTick else 0 : Int) : Rat) * c.tickToRad)
        (((if o.right.init then Spec.sdiff16 er o.right.lastTick else 0 : Int) : Rat) *
          c.tickToRad) := by
  rw [← wheelAngle_tickDelta_exact hexact, ← wheelAngle_tickDelta_exact hexact]
  rfl

end

theorem forwardKinematics_other {c : Config} {n : Nat} (hfk : c.fk = .other n) (al ar : Rat) :
    forwardKinematics c al ar = Config.otherFk n c.wheelbase c.wheelRadius al ar := by
  simp only [forwardKinematics, hfk]

/-- A stale time stamp gives zero pose rate in every number system (R208, D7). -/
theorem poseRateOf_stale (c : Config) (last : Word16) (p : Triple) :
    poseRateOf c last last p = ⟨0, 0, 0⟩ := if_pos rfl

/-! ### The statements on `OD.UPDATE` -/

/-- Settles O24: each wheel is seeded and follows its sample; the millimetres take the same delta. -/
theorem ticksSeedAndFollow : Obligations.TicksSeedAndFollow := by
  intro ts el er s
  obtain ⟨hleft, hright⟩ := odoUpdate_init s.cfg ts el er s.odo
  exact ⟨_, exec_odUpdate ts el er s, hleft, hright, rfl, rfl, fun hexact =>
    ⟨wheelUpdate_lastMm_exact hexact ts s.odo.lastTimestamp el s.odo.left,
      wheelUpdate_lastMm_exact hexact ts s.odo.lastTimestamp er s.odo.right⟩⟩

/-- Settles O26: the pose delta by the form of `FK`, the pose rate by the guard of the time stamp. -/
theorem poseFollowsKinematics : Obligations.PoseFollowsKinematics := by
  rintro ts el er s _ _ _ rfl rfl rfl
  refine ⟨_, exec_odUpdate ts el er s, fun hstale => ?_, fun hexact =>
    ⟨fun hfk hbase => ?_, fun n hfk => ?_, fun hfresh => ?_⟩⟩
  · subst hstale
    exact poseRateOf_stale s.cfg _ _
  · rw [State.setOdo_odo, odoUpdate_poseDelta_exact hexact,
      forwardKinematics_firstOrder_exact hexact hfk hbase]
  · rw [State.setOdo_odo, odoUpdate_poseDelta_exact hexact, forwardKinematics_other hfk]
  · exact poseRateOf_fresh_exact hexact hfresh _

/-- Settles O27: the update is a write of the odometry registers. -/
theorem odometryUpdateTouchesOnlyOdometry : Obligations.OdometryUpdateTouchesOnlyOdometry := by
  intro ts el er s
  exact ⟨_, exec_odUpdate ts el er s, rfl⟩

/-! ### The accessors of R212, R213, R254 -/

/-- Settles O28: each accessor is one output event that reads its registers. -/
theorem accessorsAnswerAndChangeNothing : Obligations.AccessorsAnswerAndChangeNothing := by
  intro s
  exact ⟨rfl, rfl, fun _ => rfl, rfl, rfl⟩

end Sys2Proof.Machine
end

section
/-! The Command Encoder (R11, R241, R245 to R255): rounding, velocity requests, generic commands. -/

namespace Sys2Proof.Machine

/-! ### An encoded command on the wire -/

/-- Settles O31: a velocity frame is a frame around its payload, which the Framer yields whole. -/
theorem encodedCommandPassesFramer : Obligations.EncodedCommandPassesFramer := by
  intro speed radius s hs hmin hmax
  have hlen : Spec.lengthOk s.cfg (velPayload speed radius) := by
    rw [Spec.lengthOk, velPayload_length]
    exact ⟨hmin, hmax, by decide⟩
  have hyield := frameBytes_wireFrame (s := { s with result := .encoded (velFrame speed radius) })
    (.inl hs) hlen
  rw [← frameOf_eq, ← velFrame_eq] at hyield
  exact ⟨_, _, exec_ceVelframe speed radius s, rfl, exec_frUpdate_of_frameBytes hyield⟩

/-! ### `round` (R11) -/

/-- The floor of a number and a half is a nearest integer. -/
theorem floor_half_nearest (q : Rat) : 2 * |q - (((q + 1 / 2).floor : Int) : Rat)| ≤ 1 := by
  obtain ⟨hle, hlt⟩ := floor_half q
  have habs : |q - (((q + 1 / 2).floor : Int) : Rat)| ≤ 1 / 2 :=
    abs_le.2 ⟨by linarith, by linarith⟩
  linarith

/-- At a tie it is the upper neighbour, which is farther from zero when the number is not negative. -/
theorem floor_half_tie {q : Rat} (hq : 0 ≤ q)
    (htie : 2 * |q - (((q + 1 / 2).floor : Int) : Rat)| = 1) :
    |q| < |(((q + 1 / 2).floor : Int) : Rat)| := by
  obtain ⟨-, hlt⟩ := floor_half q
  have hupper : (((q + 1 / 2).floor : Int) : Rat) = q + 1 / 2 := by
    rcases abs_choice (q - (((q + 1 / 2).floor : Int) : Rat)) with habs | habs <;>
      rw [habs] at htie <;> linarith
  rw [hupper, abs_of_nonneg hq, abs_of_nonneg (by linarith)]
  linarith

/-- Settles O32: on a negative number `round` is the mirror image of what it is on its opposite. -/
theorem roundIsNearestTiesAway : Obligations.RoundIsNearestTiesAway := by
  intro q
  by_cases hq : 0 ≤ q
  · rw [show roundNum .tiesAway q = (q + 1 / 2).floor from if_pos hq]
    exact ⟨floor_half_nearest q, floor_half_tie hq⟩
  · have hmirror : |q - ((-(-q + 1 / 2).floor : Int) : Rat)| =
        |-q - (((-q + 1 / 2).floor : Int) : Rat)| := by
      rw [← abs_neg]
      push_cast
      congr 1
      ring
    rw [show roundNum .tiesAway q = -(-q + 1 / 2).floor from if_neg hq, hmirror, Int.cast_neg,
      abs_neg, ← abs_neg q]
    exact ⟨floor_half_nearest (-q), floor_half_tie (by linarith)⟩

/-- Settles O33: below a half the floor is nearest, above it the next integer, and at a tie both are. -/
theorem openRoundIsNearest : Obligations.OpenRoundIsNearest := by
  intro n q
  have hle : ((q.floor : Int) : Rat) ≤ q := Rat.floor_le q
  have hlt : q < ((q.floor : Int) : Rat) + 1 := by
    have := Rat.lt_floor (x := q)
    linarith
  have hbelow : q - q.floor ≤ 1 / 2 → 2 * |q - (q.floor : Rat)| ≤ 1 := fun h => by
    rw [abs_of_nonneg (by linarith)]
    linarith
  have habove : 1 / 2 ≤ q - q.floor → 2 * |q - ((q.floor + 1 : Int) : Rat)| ≤ 1 := fun h => by
    rw [Int.cast_add, Int.cast_one, abs_of_nonpos (by linarith)]
    linarith
  simp only [roundNum, roundFree]
  split
  · next h => exact hbelow h.le
  · next hge =>
    split
    · next h => exact habove h.le
    · next hnot =>
      split
      · exact habove (not_lt.1 hge)
      · exact hbelow (not_lt.1 hnot)

/-! ### `SETVEL` -/

theorem fitsI16_iff (i : Int) : fitsI16 i = true ↔ -32768 ≤ i ∧ i ≤ 32767 := by
  simp only [fitsI16, Bool.and_eq_true, decide_eq_true_eq]

section
variable {v w : Rat} {s : State}

/-- A request that fits is stored and pulsed (R246). -/
theorem exec_setVel_of_fits (hspeed : fitsI16 (speedOf s.cfg v w) = true)
    (hradius : fitsI16 (radiusOf s.cfg v w) = true) :
    exec (.setVel v w) s =
      .next { s with
        cmd := ⟨toI16 (speedOf s.cfg v w), toI16 (radiusOf s.cfg v w)⟩
        trace := s.trace ++ [.notify .cmd] } := by
  simp only [exec, execSetVel, hspeed, hradius, Bool.and_self, if_true]
  rfl

/-- A request that does not fit is reported (R246, R306). -/
theorem exec_setVel_of_not_fits
    (h : ¬ (fitsI16 (speedOf s.cfg v w) = true ∧ fitsI16 (radiusOf s.cfg v w) = true)) :
    exec (.setVel v w) s =
      .next { s with
        trace := s.trace ++ [.err (.cmdRange (speedOf s.cfg v w) (radiusOf s.cfg v w))] } := by
  rw [← Bool.and_eq_true] at h
  simp only [exec, execSetVel, if_neg h, raise_cmdRange]
  rfl

end

/-- The radius of the formula on exact numbers (R245). -/
theorem radiusOf_exact {c : Config} (hexact : c.numerics = .exact) (v w : Rat) :
    radiusOf c v w =
      if w = 0 then 0 else if v = 0 ∧ 0 < w then 1 else if v = 0 ∧ w < 0 then -1
        else roundNum c.rounding (v * 1000 / w) := by
  unfold radiusOf
  by_cases hw : w = 0
  · rw [if_pos hw, if_pos hw]
  rw [if_neg hw, if_neg hw]
  by_cases hv : v = 0
  · rw [if_pos hv]
    by_cases hpos : 0 < w
    · rw [if_pos hpos, if_pos ⟨hv, hpos⟩]
    · have hneg : w < 0 := lt_of_le_of_ne (not_lt.1 hpos) hw
      rw [if_neg hpos, if_neg fun h => hpos h.2, if_pos ⟨hv, hneg⟩]
  · rw [if_neg hv, if_neg fun h => hv h.1, if_neg fun h => hv h.1, hexact, numMul_exact,
      numDiv_exact_of_ne_zero _ hw]

/-- The speed of the formula on exact numbers (R245). -/
theorem speedOf_exact {c : Config} (hexact : c.numerics = .exact) (v w : Rat) :
    speedOf c v w =
      roundNum c.rounding (1000 * max (v + c.wheelbase * w / 2) (v - c.wheelbase * w / 2)) := by
  simp only [speedOf, halfSpread, hexact, numMul_exact, numAdd_exact, numSub_exact, numMax_eq,
    numDiv_exact_of_ne_zero _ (two_ne_zero (α := Rat))]

/-- Settles O34: on exact numbers the model's speed and radius are the formula's, and a value that fits is
read back from its register. -/
theorem velocityRequestDerivesSpeedAndRadius : Obligations.VelocityRequestDerivesSpeedAndRadius := by
  intro v w s speed radius hexact hradius hspeed
  rw [← radiusOf_exact hexact] at hradius
  rw [← speedOf_exact hexact] at hspeed
  subst hradius hspeed
  refine ⟨fun ⟨hsmin, hsmax, hrmin, hrmax⟩ => ?_, fun hout => exec_setVel_of_not_fits ?_⟩
  · have hs := (fitsI16_iff _).2 ⟨hsmin, hsmax⟩
    have hr := (fitsI16_iff _).2 ⟨hrmin, hrmax⟩
    exact ⟨_, exec_setVel_of_fits hs hr, toI16_toInt hs, toI16_toInt hr, rfl⟩
  · rwa [fitsI16_iff, fitsI16_iff, and_assoc]

/-- Settles O35, by whether the model's speed and radius fit. -/
theorem velocityRequestPulsesOrReports : Obligations.VelocityRequestPulsesOrReports := by
  intro v w s
  refine ⟨fun ⟨hsmin, hsmax, hrmin, hrmax⟩ => ?_, fun hout => exec_setVel_of_not_fits ?_⟩
  · exact ⟨_, exec_setVel_of_fits ((fitsI16_iff _).2 ⟨hsmin, hsmax⟩)
      ((fitsI16_iff _).2 ⟨hrmin, hrmax⟩), rfl⟩
  · rwa [fitsI16_iff, fitsI16_iff, and_assoc]

/-! ### `GENERIC` -/

/-- A serialized payload of at most 255 bytes goes out as one frame, then the command is mirrored (R249,
R250). -/
theorem exec_generic_of_sent (cmd : Cmd) {p : Bytes} (hp : p.length ≤ 255) (s : State) :
    exec (.generic cmd (some p)) s = .next (mirrorCommand cmd (s.emit (.tx (frameOf p)))) :=
  if_neg (Nat.not_lt.2 hp)

/-- A failing serializer and a payload that is too long raise the same error (R252, R304). -/
theorem exec_generic_of_failed (cmd : Cmd) {answer : Option Bytes}
    (h : answer = none ∨ ∃ p, answer = some p ∧ 255 < p.length) (s : State) :
    exec (.generic cmd answer) s = .next (s.emit (.err (.serialization cmd))) := by
  rcases h with rfl | ⟨p, rfl, hp⟩
  · rfl
  · exact if_pos hp

/-- Settles O36: the mirror of each kind of command after the frame is sent. -/
theorem genericCommandIsFramedAndMirrored : Obligations.GenericCommandIsFramedAndMirrored := by
  intro p s hp
  refine ⟨fun n => exec_generic_of_sent _ hp s, fun speed radius => ?_⟩
  rw [exec_generic_of_sent _ hp]
  simp only [mirrorCommand, storeCommand, State.emit, State.emitAll, State.setCmd,
    List.append_assoc]
  rfl

/-- Settles O37: the report is all a failed serialization does. -/
theorem serializationFailureSendsNothing : Obligations.SerializationFailureSendsNothing := by
  intro cmd answer s h
  exact exec_generic_of_failed cmd h s

end Sys2Proof.Machine
end

section
/-! The Engine Loop (R271 to R279): RUN, STOP, and an iteration as one chunk, its passes and one frame. -/

namespace Sys2Proof.Machine

/-! ### `RUN` and `STOP` -/

/-- Settles O38: `RUN` is a write of the engine state. -/
theorem runChangesOnlyEngineState : Obligations.RunChangesOnlyEngineState := fun _ => rfl

/-- The nine bytes of the zero-velocity command (R244). -/
theorem zeroFrame_bytes :
    zeroFrame = [0xAA, 0x55, 0x05, 0x01, 0x00, 0x00, 0x00, 0x00, 0x04] := by decide

/-- `STOP` zeroes the pair, pulses, and sends the zero frame (R273). -/
theorem exec_stop (s : State) :
    exec .stop s =
      .next { s with
        cmd := ⟨0, 0⟩, enState := stoppedFrom s.enState
        trace := s.trace ++ [.notify .cmd, .tx zeroFrame] } := by
  rw [show [Output.notify .cmd, .tx zeroFrame] = [.notify .cmd] ++ [.tx zeroFrame] from rfl,
    ← List.append_assoc]
  rfl

theorem stoppedFrom_of_ne_running {e : EnState} (h : e ≠ .running) : stoppedFrom e = e := by
  cases e with
  | running => exact absurd rfl h
  | idle | stopped => rfl

/-- Settles O39: `STOP` with its frame written out, and the engine state by whether it was running. -/
theorem stopSendsZeroFrame : Obligations.StopSendsZeroFrame := by
  intro s
  refine ⟨_, exec_stop s, ?_, fun hrunning => ?_, stoppedFrom_of_ne_running⟩
  · rw [zeroFrame_bytes]
  · rw [hrunning]
    rfl

/-! ### An iteration -/

/-- Settles O40: an iteration in `Idle` is refused. -/
theorem idleRefusesIteration : Obligations.IdleRefusesIteration := by
  intro bytes s hidle
  simp only [exec, execIter, hidle, refuseEvent]

theorem exec_iter_of_ne_idle (bytes : Bytes) {s : State} (h : s.enState ≠ .idle) :
    exec (.iter bytes) s = .next (runIteration bytes s) := execIter_of_ne_idle bytes h

/-- Passes asked for one after another are passes in order. -/
theorem performAll_dpPass (bodies : List Bytes) (s : State) :
    Spec.performAll (bodies.map .dpPass) s = .next (runPasses bodies s) := by
  induction bodies generalizing s with
  | nil => rfl
  | cons body bodies ih => exact ih (runPass body s)

/-- Received bytes change neither the command pair nor the engine state, so not the frame to be sent. -/
theorem outboundFrame_feedBytes (bytes : Bytes) (s : State) :
    outboundFrame (feedBytes bytes s) = outboundFrame s := by
  rw [feedBytes_eq, runPasses_state, frameBytes_state]
  rfl

/-- The frame to be sent, its zero command written as the velocity frame it is (R244, R279). -/
theorem outboundFrame_velFrame (s : State) :
    outboundFrame s =
      if s.enState = .running then velFrame s.cmd.speed s.cmd.radius else velFrame 0 0 :=
  outboundFrame_eq s

/-- The chunk of an iteration leaves the result register alone; `FR.UPDATE` writes it afterwards. -/
theorem frameBytes_reportEmptyRead_result (bytes : Bytes) (s : State) :
    (frameBytes bytes (reportEmptyRead bytes s)).1.setResult s.result =
      (frameBytes bytes (reportEmptyRead bytes s)).1 := by
  rw [frameBytes_state, reportEmptyRead_state]
  rfl

/-- Settles O41: feeding the bytes is the chunk followed by the passes (`feedBytes_eq`), and neither changes
the frame to be sent. -/
theorem iterationIsUpdateThenPasses : Obligations.IterationIsUpdateThenPasses := by
  intro bytes s hs
  have hreport : { s with trace := s.trace ++ (if bytes = [] then [.err .transient] else []) } =
      reportEmptyRead bytes s := (reportEmptyRead_state bytes s).symm
  have hframe : outboundFrame (feedBytes bytes (reportEmptyRead bytes s)) = outboundFrame s := by
    rw [outboundFrame_feedBytes, reportEmptyRead_state]
    rfl
  rw [hreport]
  refine ⟨_, feedBytes bytes (reportEmptyRead bytes s), _, _, exec_frUpdate_of_frameBytes rfl, rfl,
    ?_, ?_, exec_iter_of_ne_idle bytes hs⟩
  · rw [feedBytes_eq, ← performAll_dpPass]
    exact congrArg (Spec.performAll _) (frameBytes_reportEmptyRead_result bytes s)
  · rw [runIteration, sendCommand, hframe, outboundFrame_velFrame]
    rfl

/-- Settles O42: the outputs of an iteration. -/
theorem iterationSendsExactlyOneFrame : Obligations.IterationSendsExactlyOneFrame := by
  intro bytes s hs
  obtain ⟨pulses, hpulses, htrace⟩ := runIteration_trace bytes s
  rw [outboundFrame_velFrame] at htrace
  exact ⟨_, pulses, exec_iter_of_ne_idle bytes hs, hpulses, htrace⟩

/-- An iteration between events leaves `dp_buf` and `upd` empty (R29, R30). -/
theorem runIteration_empty (bytes : Bytes) {s : State} (hbuf : s.dpBuf = []) (hupd : s.upd = []) :
    (runIteration bytes s).dpBuf = [] ∧ (runIteration bytes s).upd = [] := by
  rw [runIteration, feedBytes_eq, reportEmptyRead_state, frameBytes_state]
  exact runPasses_empty _ hbuf hupd

/-- Settles O43: refused in `Idle`, and else by the frame of an iteration. -/
theorem iterationFrame : Obligations.IterationFrame := by
  intro bytes s hbuf hupd
  by_cases hidle : s.enState = .idle
  · exact ⟨s, idleRefusesIteration bytes s hidle, rfl⟩
  · obtain ⟨hbuf', hupd'⟩ := runIteration_empty bytes hbuf hupd
    refine ⟨_, exec_iter_of_ne_idle bytes hidle, ?_⟩
    have hframe := runIteration_state bytes s
    rw [hbuf', hupd'] at hframe
    rwa [hbuf, hupd]

end Sys2Proof.Machine
end

section
/-! A step, construction and reset (R6, R45, R46, R305, R340 to R345). -/

namespace Sys2Proof.Machine

/-! ### One step -/

section
variable {s : State}

theorem step_of_operation {i : Instr} {rest : List Instr} (hvalid : configValid s.cfg = true)
    (hqueue : s.queue = i :: rest) : step s = exec i { s with queue := rest } := by
  simp only [step, fetch, if_pos hvalid, hqueue]
  rfl

theorem step_of_nothing (hvalid : configValid s.cfg = true) (hqueue : s.queue = []) :
    step s = .next s := by
  simp only [step, fetch, if_pos hvalid, hqueue]

theorem step_of_invalid (hinvalid : configValid s.cfg = false) : step s = .fault .configInvalid := by
  simp only [step, fetch, hinvalid, Bool.false_eq_true, if_false]

/-- A step that is taken has a valid configuration, and does nothing or performs the oldest operation. -/
theorem step_next {t : State} (h : step s = .next t) :
    configValid s.cfg = true ∧
      (t = s ∨ ∃ i rest, s.queue = i :: rest ∧ exec i { s with queue := rest } = .next t) := by
  cases hvalid : configValid s.cfg with
  | false => simp [step_of_invalid hvalid] at h
  | true =>
    refine ⟨rfl, ?_⟩
    cases hqueue : s.queue with
    | nil =>
      rw [step_of_nothing hvalid hqueue] at h
      exact .inl (Host.Outcome.next.inj h).symm
    | cons i rest =>
      rw [step_of_operation hvalid hqueue] at h
      exact .inr ⟨i, rest, rfl, h⟩

end

/-- Settles O44: the branch of `step` with an operation asked for. -/
theorem stepRunsOldestOperation : Obligations.StepRunsOldestOperation :=
  fun _ _ _ => step_of_operation

/-- Settles O45: the branch of `step` with an empty queue. -/
theorem stepWithoutRequestDoesNothing : Obligations.StepWithoutRequestDoesNothing :=
  fun _ => step_of_nothing

/-- Settles O46: the branch of `step` with an invalid configuration. -/
theorem invalidConfigurationTakesNoStep : Obligations.InvalidConfigurationTakesNoStep :=
  fun _ => step_of_invalid

/-! ### The construction check (R344), one condition at a time -/

section
variable {c : Config}

/-- With distinct ids the types repeat exactly when two ids have one type. -/
theorem not_nodup_types_iff (hids : (c.reg.map (·.id)).Nodup) :
    ¬ (c.reg.map (·.type)).Nodup ↔ ∃ a ∈ c.reg, ∃ b ∈ c.reg, a.id ≠ b.id ∧ a.type = b.type := by
  rw [List.nodup_map_iff_inj_on hids.of_map]
  constructor
  · intro h
    push Not at h
    obtain ⟨a, ha, b, hb, htype, hne⟩ := h
    exact ⟨a, ha, b, hb, fun hid => hne (List.inj_on_of_nodup_map hids ha hb hid), htype⟩
  · rintro ⟨a, ha, b, hb, hid, htype⟩ hinj
    exact hid (congrArg _ (hinj a ha b hb htype))

/-- `ID_CORE` fails to name CORE in two ways: it names no CORE entry, or it names none although there is
one. -/
theorem not_idCoreOk_iff :
    ¬ idCoreOk c = true ↔
      (∃ id, c.idCore = some id ∧ ¬ ∃ e, regLookup c id = some e ∧ e.type = .core) ∨
        (c.idCore = none ∧ ∃ e ∈ c.reg, e.type = .core) := by
  unfold idCoreOk
  cases hid : c.idCore with
  | none => simp
  | some id => cases hlook : regLookup c id <;> simp [hlook]

theorem offsetFits_iff (off : Nat) :
    offsetFits c off = true ↔
      ∀ e ∈ c.reg, ∀ n, e.type = .core → e.width = .fixed n → off + 2 ≤ n := by
  simp only [offsetFits, List.all_eq_true, Bool.or_eq_true, bne_iff_ne]
  refine forall₂_congr fun e _ => ?_
  cases e.width with
  | byRest f => simp
  | fixed n => simp [← Decidable.imp_iff_not_or]

/-- One of the three views of CORE lies past the end of a CORE body of fixed width. -/
theorem not_offsetsFit_iff :
    ¬ (offsetFits c c.offTs = true ∧ offsetFits c c.offEncL = true ∧ offsetFits c c.offEncR = true) ↔
      ∃ e ∈ c.reg, ∃ n, e.type = .core ∧ e.width = .fixed n ∧
        (n < c.offTs + 2 ∨ n < c.offEncL + 2 ∨ n < c.offEncR + 2) := by
  simp only [offsetFits_iff]
  constructor
  · intro h
    by_contra hnone
    push Not at hnone
    exact h ⟨fun e he n ht hw => (hnone e he n ht hw).1, fun e he n ht hw => (hnone e he n ht hw).2.1,
      fun e he n ht hw => (hnone e he n ht hw).2.2⟩
  · rintro ⟨e, he, n, ht, hw, hshort⟩ ⟨hts, hl, hr⟩
    have := hts e he n ht hw
    have := hl e he n ht hw
    have := hr e he n ht hw
    omega

theorem not_fieldsApart_iff (a b : Nat) :
    ¬ fieldsApart a b = true ↔ a < b + 2 ∧ b < a + 2 := by
  simp only [fieldsApart, Bool.or_eq_true, decide_eq_true_eq]
  omega

/-- The check as the list of its conditions, the distinct ids aside. -/
theorem configValid_iff (hids : (c.reg.map (·.id)).Nodup) :
    configValid c = true ↔
      (c.lenMin ≤ c.lenMax ∧ c.lenMax ≤ 255) ∧ (c.reg.map (·.type)).Nodup ∧ idCoreOk c = true ∧
      (offsetFits c c.offTs = true ∧ offsetFits c c.offEncL = true ∧ offsetFits c c.offEncR = true) ∧
      fieldsApart c.offTs c.offEncL = true ∧ fieldsApart c.offTs c.offEncR = true ∧
      fieldsApart c.offEncL c.offEncR = true ∧ c.wheelbase ≠ 0 := by
  simp only [configValid, Bool.and_eq_true, decide_eq_true_eq, and_assoc, hids, true_and]

end

/-- Construction with every parameter given is the check (R340, R344). -/
theorem construct_configParams (c : Config) :
    construct (configParams c) =
      if configValid c then .next (State.init c) else .fault .configInvalid := rfl

/-- Settles O47: the negated check is the disjunction of its negated conditions. -/
theorem constructionFailsExactlyWhenListed : Obligations.ConstructionFailsExactlyWhenListed := by
  intro c hids
  have hfails : construct (configParams c) = .fault .configInvalid ↔ ¬ configValid c = true := by
    rw [construct_configParams]
    split <;> simp [*]
  refine ⟨hfails.trans ?_, fun hok => ?_⟩
  · rw [configValid_iff hids]
    refine not_and_or.trans (or_congr Iff.rfl ?_)
    refine not_and_or.trans (or_congr (not_nodup_types_iff hids) ?_)
    refine (not_and_or.trans (or_congr not_idCoreOk_iff ?_)).trans or_assoc
    refine not_and_or.trans (or_congr not_offsetsFit_iff ?_)
    refine not_and_or.trans (or_congr (not_fieldsApart_iff _ _) ?_)
    refine not_and_or.trans (or_congr (not_fieldsApart_iff _ _) ?_)
    exact not_and_or.trans (or_congr (not_fieldsApart_iff _ _) not_not)
  · rw [construct_configParams, if_pos (not_not.1 (mt hfails.2 hok))]

/-- A configuration comes from parameters that all have values: one bind for each of the thirteen of R5. -/
theorem eq_configParams_of_paramsConfig {p : Params} {c : Config} (h : paramsConfig p = some c) :
    p = configParams c := by
  cases p
  dsimp only [paramsConfig] at h
  iterate 13
    replace h := Option.bind_eq_some_iff.1 h
    obtain ⟨_, rfl, h⟩ := h
  cases h
  rfl

/-- Settles O48: with a parameter missing there is no configuration to check. -/
theorem missingParameterFailsConstruction : Obligations.MissingParameterFailsConstruction := by
  intro p hmissing
  cases hp : paramsConfig p with
  | none => simp only [construct, hp]
  | some c =>
    rw [eq_configParams_of_paramsConfig hp] at hmissing
    simp [configParams] at hmissing

/-! ### Reset (R45) -/

/-- Settles O49: each register is the value `State.init` gives it. -/
theorem resetLeavesTableValues : Obligations.ResetLeavesTableValues :=
  ⟨rfl, rfl, rfl, recGet_reset, rfl, rfl, rfl, rfl, rfl, rfl, rfl, rfl, rfl, rfl, rfl, rfl, rfl, rfl, rfl,
    rfl, rfl⟩

/-- With no record written there is no width to keep. -/
theorem recordsOk_reset (c : Config) : recordsOk c Records.reset = true := by
  simp only [recordsOk, List.all_eq_true, recGet_reset]
  intro e _
  cases e.width <;> rfl

/-- Settles O50, clause by clause: the odometry clause is closed by evaluation, the others by unfolding. -/
theorem resetMeetsInvariant : Obligations.ResetMeetsInvariant where
  framer := rfl
  buffer := rfl
  updated := rfl
  records := recordsOk_reset _
  odometry := by decide +kernel
  outputs := rfl
  requests := rfl

end Sys2Proof.Machine
end

section
/-! What an operation can do (R117), said once, and the rules over every operation that follow from it (R24, R25,
R39, R43, R62, R182, R250, R270). -/

namespace Sys2Proof.Machine

/-! ### What passes and iterations keep -/

/-- The registers the host's own events govern: command pair, engine state, configuration, queue. -/
structure SameHost (s t : State) : Prop where
  cmd : t.cmd = s.cmd
  enState : t.enState = s.enState
  cfg : t.cfg = s.cfg
  queue : t.queue = s.queue

/-- A decode writes `dp_buf`, the records and `upd`, whether its body fits or not. -/
theorem decodeRecord_state (t : RecType) (id : Byte) (w : Nat) (s : State) :
    decodeRecord t id w s =
      ((s.setDpBuf (decodeRecord t id w s).dpBuf).setRecs (decodeRecord t id w s).recs).setUpd
        (decodeRecord t id w s).upd :=
  performSub_state (.decode t id w) s

theorem sameHost_decodeRecord (t : RecType) (id : Byte) (w : Nat) (s : State) :
    SameHost s (decodeRecord t id w s) := by
  rw [decodeRecord_state]
  exact ⟨rfl, rfl, rfl, rfl⟩

theorem sameHost_endOfPass (s : State) : SameHost s (endOfPass s) := by
  rw [endOfPass_state]
  exact ⟨rfl, rfl, rfl, rfl⟩

theorem sameHost_runPass (body : Bytes) (s : State) : SameHost s (runPass body s) := by
  rw [runPass_state]
  exact ⟨rfl, rfl, rfl, rfl⟩

theorem sameHost_runIteration (bytes : Bytes) (s : State) : SameHost s (runIteration bytes s) := by
  rw [runIteration_state]
  exact ⟨rfl, rfl, rfl, rfl⟩

/-- What the Framer's writes, outputs and passes keep, an iteration keeps (R275, R277). -/
theorem runIteration_keeps (P : State → Prop) (hfr : ∀ s f, P s → P (s.setFr f))
    (hemit : ∀ s os, P s → P (s.emitAll os)) (hpass : ∀ body s, P s → P (runPass body s))
    (bytes : Bytes) {s : State} (h : P s) : P (runIteration bytes s) := by
  have hpasses : ∀ bodies s, P s → P (runPasses bodies s) := by
    intro bodies
    induction bodies with
    | nil => exact fun s hs => hs
    | cons body bodies ih => exact fun s hs => ih _ (hpass body s hs)
  rw [runIteration, feedBytes_eq, reportEmptyRead_state, frameBytes_state]
  exact hemit _ _ (hpasses _ _ (hfr _ _ (hemit _ _ h)))

/-! ### What an operation can do -/

/-- The operations that write the command pair or the engine state, with what they leave (R246, R250, R271,
R273). -/
inductive CommandEffect (s : State) : Instr → State → Prop
  | setsVelocity (v w : Rat) (p : CmdPair) : CommandEffect s (.setVel v w) (storeCommand p s)
  | sendsBase (speed radius : Word16) (p : Bytes) (hp : p.length ≤ 255) :
    CommandEffect s (.generic (.baseControl speed radius) (some p))
      (storeCommand ⟨speed, radius⟩ (s.emit (.tx (frameOf p))))
  | runs : CommandEffect s .run (s.setEn .running)
  | stops :
    CommandEffect s .stop
      (((storeCommand ⟨0, 0⟩ s).emit (.tx zeroFrame)).setEn (stoppedFrom s.enState))

/-- What an operation can leave: which registers it writes, and the operations that are no input events marked
as such. -/
inductive Effect (s : State) : Instr → State → Prop
  | command {i : Instr} {t : State} (h : CommandEffect s i t) : Effect s i t
  | frames {i : Instr} (hi : i.isEvent = false) (f : Framer) (r : Result) :
    Effect s i ((s.setFr f).setResult r)
  | passes (body : Bytes) : Effect s (.dpPass body) (runPass body s)
  | decodes {i : Instr} {t : RecType} {id : Byte} {w : Nat} (hi : i.isEvent = false)
    (h : (i, t) ∈ Spec.decodes id w) : Effect s i (decodeRecord t id w s)
  | drops {i : Instr} (hi : i.isEvent = false) : Effect s i (s.setDpBuf [])
  | notifies : Effect s .dpNotify (endOfPass s)
  | integrates {i : Instr} (hi : i.isEvent = false) (o : Odometry) : Effect s i (s.setOdo o)
  | encodes {i : Instr} (r : Result) : Effect s i (s.setResult r)
  | emits {i : Instr} {o : Output} (ho : outputOk o = true) : Effect s i (s.emit o)
  | refuses {i : Instr} : Effect s i s
  | iterates (bytes : Bytes) : Effect s (.iter bytes) (runIteration bytes s)

section
variable {i : Instr} {s t : State}

theorem setVel_effect (v w : Rat) (h : exec (.setVel v w) s = .next t) : Effect s (.setVel v w) t := by
  by_cases hfits : fitsI16 (speedOf s.cfg v w) = true ∧ fitsI16 (radiusOf s.cfg v w) = true
  · rw [exec_setVel_of_fits hfits.1 hfits.2] at h
    cases h
    exact .command
      (.setsVelocity v w ⟨toI16 (speedOf s.cfg v w), toI16 (radiusOf s.cfg v w)⟩)
  · rw [exec_setVel_of_not_fits hfits] at h
    cases h
    exact .emits rfl

theorem generic_effect (cmd : Cmd) (answer : Option Bytes)
    (h : exec (.generic cmd answer) s = .next t) : Effect s (.generic cmd answer) t := by
  by_cases hfailed : answer = none ∨ ∃ p, answer = some p ∧ 255 < p.length
  · rw [exec_generic_of_failed cmd hfailed] at h
    cases h
    exact .emits rfl
  · obtain ⟨p, rfl⟩ := Option.ne_none_iff_exists'.1 fun hnone => hfailed (.inl hnone)
    have hp : p.length ≤ 255 := Nat.not_lt.1 fun hlong => hfailed (.inr ⟨p, rfl, hlong⟩)
    rw [exec_generic_of_sent cmd hp] at h
    cases h
    cases cmd with
    | baseControl speed radius => exact .command (.sendsBase speed radius p hp)
    | other token => exact .emits (frameOf_complete hp)

theorem iter_effect (bytes : Bytes) (h : exec (.iter bytes) s = .next t) : Effect s (.iter bytes) t := by
  by_cases hidle : s.enState = .idle
  · rw [idleRefusesIteration bytes s hidle] at h
    cases h
    exact .refuses
  · rw [exec_iter_of_ne_idle bytes hidle] at h
    cases h
    exact .iterates bytes

/-- Every operation does one of these. -/
theorem exec_effect (h : exec i s = .next t) : Effect s i t := by
  cases i with
  | frByte b =>
    cases h
    rw [frameByte_state]
    exact .frames rfl _ _
  | frUpdate bytes =>
    cases h
    rw [frameBytes_state]
    exact .frames rfl _ _
  | dpPass body => cases h; exact .passes body
  | spCore id w | spIr id w | spDockIr id w | spInertia id w | spCliff id w | spCurrent id w
  | spMagnet id w | spHw id w | spFw id w | spTime id w | spGyro id w | spEeprom id w | spGpin id w =>
    cases h
    exact .decodes rfl (by simp [Spec.decodes])
  | spUnknown id | spTrunc id => cases h; exact .drops rfl
  | dpNotify => cases h; exact .notifies
  | odUpdate ts el er => cases h; exact .integrates rfl _
  | getWheel name => cases name <;> cases h <;> exact .emits rfl
  | getPose | getCmd | getRec u => cases h; exact .emits rfl
  | ceVelframe speed radius => cases h; exact .encodes _
  | setVel v w => exact setVel_effect v w h
  | generic cmd answer => exact generic_effect cmd answer h
  | run => cases h; exact .command .runs
  | stop => cases h; exact .command .stops
  | iter bytes => exact iter_effect bytes h

/-! ### Configuration, command pair and engine state -/

/-- Only the four command effects touch what the host's events govern. -/
theorem Effect.sameHost_or_command (h : Effect s i t) : SameHost s t ∨ CommandEffect s i t := by
  cases h with
  | command h => exact .inr h
  | frames | drops | integrates | encodes | emits | refuses => exact .inl ⟨rfl, rfl, rfl, rfl⟩
  | passes body => exact .inl (sameHost_runPass body s)
  | decodes => exact .inl (sameHost_decodeRecord _ _ _ s)
  | notifies => exact .inl (sameHost_endOfPass s)
  | iterates bytes => exact .inl (sameHost_runIteration bytes s)

/-- Every operation keeps configuration and queue (R43, log 3). -/
theorem Effect.cfg_queue (h : Effect s i t) : t.cfg = s.cfg ∧ t.queue = s.queue := by
  rcases h.sameHost_or_command with h | h
  · exact ⟨h.cfg, h.queue⟩
  · cases h <;> exact ⟨rfl, rfl⟩

end

/-- Settles O52, by what every effect keeps. -/
theorem configurationIsReadOnly : Obligations.ConfigurationIsReadOnly :=
  fun _ _ _ h => (exec_effect h).cfg_queue

/-- Settles O53, by the command effects: `RUN` alone of them leaves the pair as it is. -/
theorem onlyCommandEventsWritePair : Obligations.OnlyCommandEventsWritePair := by
  intro i s t h hne
  rcases (exec_effect h).sameHost_or_command with h | h
  · exact absurd h.cmd hne
  · cases h with
    | setsVelocity v w => exact .inl ⟨v, w, rfl⟩
    | sendsBase speed radius p hp => exact .inr (.inl ⟨speed, radius, p, rfl, hp⟩)
    | runs => exact absurd rfl hne
    | stops => exact .inr (.inr rfl)

/-- Settles O54, by the command effects: only `RUN` and `STOP` write the engine state. -/
theorem onlyRunAndStopMoveEngine : Obligations.OnlyRunAndStopMoveEngine := by
  intro i s t h hne
  rcases (exec_effect h).sameHost_or_command with h | h
  · exact absurd h.enState hne
  · cases h with
    | setsVelocity | sendsBase => exact absurd rfl hne
    | runs => exact .inl ⟨rfl, rfl⟩
    | stops =>
      have hrunning : s.enState = .running := by
        by_contra hnot
        exact hne (stoppedFrom_of_ne_running hnot)
      exact .inr ⟨rfl, hrunning, congrArg stoppedFrom hrunning⟩

/-! ### Outputs -/

theorem outputOk_of_pulses {os : List Output} (h : ∀ o ∈ os, ∃ p, o = .notify p) :
    os.all outputOk = true := by
  refine List.all_eq_true.2 fun o ho => ?_
  obtain ⟨p, rfl⟩ := h o ho
  rfl

theorem outboundFrame_complete (s : State) : frameComplete (outboundFrame s) = true := by
  rw [outboundFrame_velFrame]
  split <;> exact velFrame_complete _ _

section
variable {i : Instr} {s t : State}

theorem CommandEffect.outputs (h : CommandEffect s i t) :
    ∃ new, t.trace = s.trace ++ new ∧ new.all outputOk = true := by
  cases h with
  | setsVelocity => exact ⟨[.notify .cmd], rfl, rfl⟩
  | sendsBase speed radius p hp =>
    exact ⟨[.tx (frameOf p), .notify .cmd], List.append_assoc _ _ _, by
      simp [outputOk, frameOf_complete hp]⟩
  | runs => exact ⟨[], (List.append_nil _).symm, rfl⟩
  | stops => exact ⟨[.notify .cmd, .tx zeroFrame], List.append_assoc _ _ _, by decide⟩

/-- The trace only grows, by whole frames and outputs that are no transmissions (R7, R62). -/
theorem Effect.outputs (h : Effect s i t) :
    ∃ new, t.trace = s.trace ++ new ∧ new.all outputOk = true := by
  cases h with
  | command h => exact h.outputs
  | frames | drops | integrates | encodes | refuses => exact ⟨[], (List.append_nil _).symm, rfl⟩
  | decodes =>
    rw [decodeRecord_state]
    exact ⟨[], (List.append_nil _).symm, rfl⟩
  | passes body => exact ⟨_, runPass_trace body s, outputOk_of_pulses (pulsesOfAll_pulses _ _)⟩
  | notifies => exact ⟨_, endOfPass_trace s, outputOk_of_pulses (pulsesOfAll_pulses _ _)⟩
  | @emits _ o ho => exact ⟨[o], rfl, by simp [ho]⟩
  | iterates bytes =>
    obtain ⟨pulses, hpulses, htrace⟩ := runIteration_trace bytes s
    refine ⟨(if bytes = [] then [.err .transient] else []) ++ pulses ++ [.tx (outboundFrame s)],
      by rw [htrace, List.append_assoc, List.append_assoc, List.append_assoc], ?_⟩
    have hreport : (if bytes = [] then [Output.err .transient] else []).all outputOk = true := by
      split <;> rfl
    simp [List.all_append, hreport, outputOk_of_pulses hpulses, outputOk, outboundFrame_complete s]

end

/-- A complete frame is start sequence, length byte, and as many bytes as it says with the checksum (R62, R90,
R91). -/
theorem exists_of_frameComplete {f : Bytes} (h : frameComplete f = true) :
    ∃ n rest, f = 0xAA :: 0x55 :: n :: rest ∧ rest.length = n.toNat + 1 ∧ xor8 (n :: rest) = 0 := by
  unfold frameComplete at h
  split at h
  · simp only [Bool.and_eq_true, beq_iff_eq] at h
    obtain ⟨⟨⟨rfl, rfl⟩, hlen⟩, hxor⟩ := h
    exact ⟨_, _, rfl, hlen, hxor⟩
  · simp at h

/-- Settles O57, by the outputs of each effect. -/
theorem everyTransmissionIsOneFrame : Obligations.EveryTransmissionIsOneFrame := by
  intro i s t h
  obtain ⟨new, htrace, hok⟩ := (exec_effect h).outputs
  exact ⟨new, htrace, fun f hf => exists_of_frameComplete (List.all_eq_true.1 hok _ hf)⟩

/-! ### Records -/

/-- A decode changes the record of its own type, or none (R24, R163). -/
theorem decodeRecord_recs (t : RecType) (id : Byte) (w : Nat) (s : State) :
    (decodeRecord t id w s).recs = s.recs ∨
      ∃ b, (decodeRecord t id w s).recs = recSet s.recs t b := by
  unfold decodeRecord
  split
  · exact .inr ⟨_, rfl⟩
  · exact .inl rfl

/-- An operation leaves the records alone, writes the one of the type it decodes, or is a pass or an
iteration. -/
theorem Effect.recs {i : Instr} {s t : State} (h : Effect s i t) :
    t.recs = s.recs ∨
      (∃ u id w b, (i, u) ∈ Spec.decodes id w ∧ t.recs = recSet s.recs u b) ∨
      (∃ body, i = .dpPass body ∧ t = runPass body s) ∨
      ∃ bytes, i = .iter bytes ∧ t = runIteration bytes s := by
  cases h with
  | command h => cases h <;> exact .inl rfl
  | frames | drops | integrates | encodes | emits | refuses => exact .inl rfl
  | notifies =>
    rw [endOfPass_state]
    exact .inl rfl
  | passes body => exact .inr (.inr (.inl ⟨body, rfl, rfl⟩))
  | iterates bytes => exact .inr (.inr (.inr ⟨bytes, rfl, rfl⟩))
  | @decodes _ u id w _ hmem =>
    rcases decodeRecord_recs u id w s with hrecs | ⟨b, hrecs⟩
    · exact .inl hrecs
    · exact .inr (.inl ⟨u, id, w, b, hmem, hrecs⟩)

/-- What `u` has emitted since `s` notifies the type `t` if its record has changed since. -/
def NotifiedSince (s : State) (t : RecType) (u : State) : Prop :=
  ∃ new, u.trace = s.trace ++ new ∧
    (recGet u.recs t ≠ recGet s.recs t → .notify (.record t) ∈ new)

theorem NotifiedSince.refl (s : State) (t : RecType) : NotifiedSince s t s :=
  ⟨[], (List.append_nil _).symm, absurd rfl⟩

section
variable {s u : State} {t : RecType}

theorem NotifiedSince.emitAll (h : NotifiedSince s t u) (os : List Output) :
    NotifiedSince s t (u.emitAll os) := by
  obtain ⟨new, htrace, hnotified⟩ := h
  exact ⟨new ++ os, by rw [State.emitAll_trace, htrace, List.append_assoc],
    fun hne => List.mem_append_left _ (hnotified hne)⟩

/-- A record that a pass changes is notified by it; any other had been notified if it had changed. -/
theorem NotifiedSince.runPass (h : NotifiedSince s t u) (body : Bytes) :
    NotifiedSince s t (runPass body u) := by
  obtain ⟨new, htrace, hnotified⟩ := h
  by_cases hpass : recGet (Machine.runPass body u).recs t = recGet u.recs t
  · refine ⟨_, by rw [runPass_trace, htrace, List.append_assoc], fun hne => ?_⟩
    exact List.mem_append_left _ (hnotified (hpass ▸ hne))
  · obtain ⟨pulses, hpulses, hmem⟩ := runPass_notifies body u t hpass
    exact ⟨new ++ pulses, by rw [hpulses, htrace, List.append_assoc],
      fun _ => List.mem_append_right _ hmem⟩

end

/-- An iteration notifies the type of every record it changes (R182). -/
theorem notifiedSince_runIteration (bytes : Bytes) (s : State) (t : RecType) :
    NotifiedSince s t (runIteration bytes s) :=
  runIteration_keeps (NotifiedSince s t) (fun _ _ h => h) (fun _ os h => h.emitAll os)
    (fun body _ h => h.runPass body) bytes (.refl s t)

theorem runPass_written (body : Bytes) {s : State} {t : RecType} (h : (recGet s.recs t).isSome = true) :
    (recGet (runPass body s).recs t).isSome = true := by
  rw [runPass_recs]
  exact passLoop_written _ _ t h

theorem runIteration_written (bytes : Bytes) {s : State} {t : RecType}
    (h : (recGet s.recs t).isSome = true) : (recGet (runIteration bytes s).recs t).isSome = true :=
  runIteration_keeps (fun u => (recGet u.recs t).isSome = true) (fun _ _ hu => hu) (fun _ _ hu => hu)
    (fun body _ hu => runPass_written body hu) bytes h

/-- Settles O55, by the effects that write records: a decode, a pass, an iteration. -/
theorem recordsChangeOnlyByDecode : Obligations.RecordsChangeOnlyByDecode := by
  intro i s s' t h
  rcases (exec_effect h).recs with hrecs | ⟨u, id, w, b, hmem, hrecs⟩ | ⟨body, rfl, rfl⟩ |
    ⟨bytes, rfl, rfl⟩
  · rw [hrecs]
    exact ⟨absurd rfl, fun hsome => hsome⟩
  · rw [hrecs]
    refine ⟨fun hne => .inl ⟨id, w, ?_⟩, recGet_recSet_isSome _ _ _ _⟩
    have htype : t = u := by
      by_contra hother
      exact hne (recGet_recSet_other _ hother b)
    rwa [htype]
  · exact ⟨fun hne => .inr ⟨.inl ⟨body, rfl⟩, runPass_notifies body s t hne⟩, runPass_written body⟩
  · obtain ⟨new, htrace, hnotified⟩ := notifiedSince_runIteration bytes s t
    exact ⟨fun hne => .inr ⟨.inr ⟨bytes, rfl⟩, new, htrace, hnotified hne⟩, runIteration_written bytes⟩

end Sys2Proof.Machine
end

section
/-! The output trace is write-only (R7, R307, log 4): what an operation appends does not depend on it. -/

namespace Sys2Proof.Machine

/-- Started in `s` with any trace, `f` does what it does in `s` and appends `new`. -/
def Appends (f : State → State) (s : State) (new : List Output) : Prop :=
  ∀ tr, f { s with trace := tr } = { f s with trace := tr ++ new }

/-! ### The parts of the operations -/

theorem Appends.comp {f g : State → State} {s : State} {xs ys : List Output} (hf : Appends f s xs)
    (hg : Appends g (f s) ys) : Appends (g ∘ f) s (xs ++ ys) := by
  intro tr
  rw [Function.comp_apply, hf tr, hg (tr ++ xs), List.append_assoc]
  rfl

/-- The Framer does not read the trace. -/
theorem frameBytes_withTrace (bytes : Bytes) (s : State) (tr : List Output) :
    frameBytes bytes { s with trace := tr } =
      ({ (frameBytes bytes s).1 with trace := tr }, (frameBytes bytes s).2) := by
  have h := frameBytes_congr bytes (s := { s with trace := tr }) (t := s) rfl rfl
  refine Prod.ext ?_ h.2
  rw [frameBytes_state, h.1, frameBytes_state bytes s]
  rfl

theorem frameByte_withTrace (b : Byte) (s : State) (tr : List Output) :
    frameByte b { s with trace := tr } =
      ({ (frameByte b s).1 with trace := tr }, (frameByte b s).2) := by
  have h := frameByte_congr b (s := { s with trace := tr }) (t := s) rfl rfl
  refine Prod.ext ?_ h.2
  rw [frameByte_state, h.1, frameByte_state b s]
  rfl

theorem appends_decodeRecord (t : RecType) (id : Byte) (w : Nat) (s : State) :
    Appends (decodeRecord t id w) s [] := by
  intro tr
  rw [List.append_nil]
  unfold decodeRecord
  split <;> rfl

theorem appends_endOfPass (s : State) : Appends endOfPass s (pulsesOfAll s.cfg s.upd) := by
  intro tr
  unfold endOfPass notifyOdometry
  dsimp only
  split <;> rfl

/-- A pass reads nothing the trace could change (`runPass_congr`). -/
theorem appends_runPass (body : Bytes) (s : State) : ∃ new, Appends (runPass body) s new := by
  refine ⟨pulsesOfAll s.cfg (passLoop (body.drop 1).length (startPass body s)).upd, fun tr => ?_⟩
  obtain ⟨hsame, pulses, hwith, hwithout⟩ :=
    runPass_congr body (s := { s with trace := tr }) (t := s) rfl rfl rfl rfl
  have hpulses := List.append_cancel_left (hwithout.symm.trans (runPass_trace body s))
  rw [runPass_state body { s with trace := tr }, runPass_state body s, hsame.recs, hsame.odo,
    hsame.freeCount, hwith, hpulses]

theorem appends_runPasses (bodies : List Bytes) (s : State) :
    ∃ new, Appends (runPasses bodies) s new := by
  induction bodies generalizing s with
  | nil => exact ⟨[], fun tr => by rw [List.append_nil]; rfl⟩
  | cons body bodies ih =>
    obtain ⟨xs, hpass⟩ := appends_runPass body s
    obtain ⟨ys, hrest⟩ := ih (runPass body s)
    exact ⟨xs ++ ys, hpass.comp hrest⟩

theorem appends_feedBytes (bytes : Bytes) (s : State) : ∃ new, Appends (feedBytes bytes) s new := by
  obtain ⟨new, h⟩ := appends_runPasses (frameBytes bytes s).2 (frameBytes bytes s).1
  refine ⟨new, fun tr => ?_⟩
  rw [feedBytes_eq, feedBytes_eq, frameBytes_withTrace, h tr]

theorem appends_runIteration (bytes : Bytes) (s : State) :
    ∃ new, Appends (runIteration bytes) s new := by
  have hreport : Appends (reportEmptyRead bytes) s (if bytes = [] then [.err .transient] else []) :=
    fun tr => by rw [reportEmptyRead_state, reportEmptyRead_state]; rfl
  obtain ⟨pulses, hfeed⟩ := appends_feedBytes bytes (reportEmptyRead bytes s)
  have hsend : Appends sendCommand (feedBytes bytes (reportEmptyRead bytes s))
    [.tx (outboundFrame (feedBytes bytes (reportEmptyRead bytes s)))] := fun _ => rfl
  exact ⟨_, (hreport.comp hfeed).comp hsend⟩

/-! ### The operations -/

/-- `i` started in `s` with any trace leaves one state, with one list of outputs appended. -/
def IgnoresTrace (i : Instr) (s : State) : Prop :=
  ∃ (t : State) (new : List Output), ∀ tr : List Output,
    exec i { s with trace := tr } = .next { t with trace := tr ++ new }

section
variable {s : State} {i : Instr} {f : State → State}

theorem ignoresTrace_of_appends {new : List Output} (h : Appends f s new)
    (hexec : ∀ s, exec i s = .next (f s)) : IgnoresTrace i s :=
  ⟨f s, new, fun tr => by rw [hexec, h tr]⟩

/-- An operation that emits nothing. -/
theorem ignoresTrace_of_silent (h : ∀ tr, f { s with trace := tr } = { f s with trace := tr })
    (hexec : ∀ s, exec i s = .next (f s)) : IgnoresTrace i s :=
  ignoresTrace_of_appends (new := []) (fun tr => by rw [List.append_nil, h tr]) hexec

/-- An operation that is one output event. -/
theorem ignoresTrace_of_emits {o : State → Output} (h : ∀ tr, o { s with trace := tr } = o s)
    (hexec : ∀ s, exec i s = .next (s.emit (o s))) : IgnoresTrace i s :=
  ⟨s, [o s], fun tr => by rw [hexec, h tr]; rfl⟩

end

section
variable {s : State}

theorem ignoresTrace_setVel (v w : Rat) : IgnoresTrace (.setVel v w) s := by
  by_cases hfits : fitsI16 (speedOf s.cfg v w) = true ∧ fitsI16 (radiusOf s.cfg v w) = true
  · exact ⟨{ s with cmd := ⟨toI16 (speedOf s.cfg v w), toI16 (radiusOf s.cfg v w)⟩ }, [.notify .cmd],
      fun tr => exec_setVel_of_fits (s := { s with trace := tr }) hfits.1 hfits.2⟩
  · exact ⟨s, [.err (.cmdRange (speedOf s.cfg v w) (radiusOf s.cfg v w))],
      fun tr => exec_setVel_of_not_fits (s := { s with trace := tr }) hfits⟩

theorem ignoresTrace_generic (cmd : Cmd) (answer : Option Bytes) :
    IgnoresTrace (.generic cmd answer) s := by
  by_cases hfailed : answer = none ∨ ∃ p, answer = some p ∧ 255 < p.length
  · exact ignoresTrace_of_emits (fun _ => rfl) (exec_generic_of_failed cmd hfailed)
  · obtain ⟨p, rfl⟩ := Option.ne_none_iff_exists'.1 fun hnone => hfailed (.inl hnone)
    have hp : p.length ≤ 255 := Nat.not_lt.1 fun hlong => hfailed (.inr ⟨p, rfl, hlong⟩)
    cases cmd with
    | baseControl speed radius =>
      exact ⟨{ s with cmd := ⟨speed, radius⟩ }, [.tx (frameOf p), .notify .cmd], fun tr =>
        (genericCommandIsFramedAndMirrored p { s with trace := tr } hp).2 speed radius⟩
    | other token => exact ignoresTrace_of_emits (fun _ => rfl) (exec_generic_of_sent (.other token) hp)

theorem ignoresTrace_getWheel (name : WheelName) : IgnoresTrace (.getWheel name) s := by
  cases name with
  | left =>
    exact ignoresTrace_of_emits
      (o := fun s => .answer (.wheel s.odo.left.lastRad s.odo.left.lastVelocity))
      (fun _ => rfl) (fun _ => rfl)
  | right =>
    exact ignoresTrace_of_emits
      (o := fun s => .answer (.wheel s.odo.right.lastRad s.odo.right.lastVelocity))
      (fun _ => rfl) (fun _ => rfl)
  | other name => exact ignoresTrace_of_emits (o := fun _ => .answer .noValue) (fun _ => rfl) (fun _ => rfl)

theorem ignoresTrace_iter (bytes : Bytes) : IgnoresTrace (.iter bytes) s := by
  by_cases hidle : s.enState = .idle
  · refine ⟨s, [], fun tr => ?_⟩
    rw [idleRefusesIteration bytes { s with trace := tr } hidle, List.append_nil]
  · obtain ⟨new, h⟩ := appends_runIteration bytes s
    refine ⟨runIteration bytes s, new, fun tr => ?_⟩
    rw [exec_iter_of_ne_idle bytes (s := { s with trace := tr }) hidle, h tr]

end

/-- Settles O56, operation by operation. -/
theorem traceIsNeverRead : Obligations.TraceIsNeverRead := by
  intro i s
  show IgnoresTrace i s
  cases i with
  | frByte b =>
    exact ignoresTrace_of_silent (f := fun s => (frameByte b s).1.setResult (byteResult (frameByte b s).2))
      (fun tr => by rw [frameByte_withTrace]; rfl) (fun _ => rfl)
  | frUpdate bytes =>
    exact ignoresTrace_of_silent
      (f := fun s => (frameBytes bytes s).1.setResult (.frames (frameBytes bytes s).2))
      (fun tr => by rw [frameBytes_withTrace]; rfl) (fun _ => rfl)
  | dpPass body =>
    obtain ⟨new, h⟩ := appends_runPass body s
    exact ignoresTrace_of_appends h (exec_dpPass body)
  | spCore id w | spIr id w | spDockIr id w | spInertia id w | spCliff id w | spCurrent id w
  | spMagnet id w | spHw id w | spFw id w | spTime id w | spGyro id w | spEeprom id w | spGpin id w =>
    exact ignoresTrace_of_appends (appends_decodeRecord _ id w s) (fun _ => rfl)
  | spUnknown id | spTrunc id =>
    exact ignoresTrace_of_silent (f := fun s => s.setDpBuf []) (fun _ => rfl) (fun _ => rfl)
  | dpNotify => exact ignoresTrace_of_appends (appends_endOfPass s) exec_dpNotify
  | odUpdate ts el er =>
    exact ignoresTrace_of_silent (fun _ => rfl) (exec_odUpdate ts el er)
  | ceVelframe speed radius =>
    exact ignoresTrace_of_silent (fun _ => rfl) (exec_ceVelframe speed radius)
  | getWheel name => exact ignoresTrace_getWheel name
  | getPose =>
    exact ignoresTrace_of_emits (o := fun s => .answer (.pose s.odo.poseDelta s.odo.poseRate))
      (fun _ => rfl) (fun _ => rfl)
  | getCmd =>
    exact ignoresTrace_of_emits (o := fun s => .answer (.command s.cmd.speed s.cmd.radius))
      (fun _ => rfl) (fun _ => rfl)
  | getRec u =>
    exact ignoresTrace_of_emits (o := fun s => .answer (recordAnswer u s)) (fun _ => rfl) (exec_getRec u)
  | setVel v w => exact ignoresTrace_setVel v w
  | generic cmd answer => exact ignoresTrace_generic cmd answer
  | run => exact ignoresTrace_of_silent (f := fun s => s.setEn .running) (fun _ => rfl) (fun _ => rfl)
  | stop =>
    exact ⟨{ s with cmd := ⟨0, 0⟩, enState := stoppedFrom s.enState }, [.notify .cmd, .tx zeroFrame],
      fun tr => exec_stop { s with trace := tr }⟩
  | iter bytes => exact ignoresTrace_iter bytes

end Sys2Proof.Machine
end

section
/-! Every step keeps the invariant between events (R23, R28 to R30, R62, R201, R345). -/

namespace Sys2Proof.Machine

/-! ### The odometry clause -/

/-- The odometry clause reads the odometry registers and whether CORE is written. -/
theorem odometryOk_congr {s t : State} (hodo : t.odo = s.odo) (hcore : t.recs.core = s.recs.core) :
    odometryOk t = odometryOk s := by
  rw [odometryOk, odometryOk, hodo, hcore]

/-- With both wheels seeded and CORE written the clause holds. -/
theorem odometryOk_of_seeded {s : State} (hleft : s.odo.left.init = true)
    (hright : s.odo.right.init = true) (hcore : s.recs.core.isSome = true) : odometryOk s = true := by
  simp [odometryOk, hleft, hright, hcore]

section
variable {body : Bytes} {s : State}

/-- The ids that the loop of a pass over `body` collects. -/
abbrev passUpd (body : Bytes) (s : State) : List Byte :=
  (passLoop (body.drop 1).length (startPass body s)).upd

/-- A pass whose loop collects CORE updates the odometry registers, any other leaves them (R182 step 1). -/
theorem runPass_odo_seeded (h : coreUpdated s.cfg (passUpd body s) = true) :
    (runPass body s).odo.left.init = true ∧ (runPass body s).odo.right.init = true := by
  rw [runPass, endOfPass_odo, if_pos (by rw [State.setDpBuf_cfg, passLoop_cfg]; exact h)]
  exact odoUpdate_init _ _ _ _ _

theorem runPass_odo_kept (h : ¬ coreUpdated s.cfg (passUpd body s) = true) :
    (runPass body s).odo = s.odo := by
  rw [runPass, endOfPass_odo, if_neg (by rw [State.setDpBuf_cfg, passLoop_cfg]; exact h),
    passLoop_state]
  rfl

/-- The record of CORE is written once a pass collects its id, and kept by any other pass (R163, R344). -/
theorem runPass_core_written (hvalid : configValid s.cfg = true)
    (h : coreUpdated s.cfg (passUpd body s) = true) : (runPass body s).recs.core.isSome = true := by
  obtain ⟨id, hmem, hid⟩ := (coreUpdated_iff _ _).1 h
  obtain ⟨e, he, hwritten⟩ := passLoop_updated _ (s := startPass body s) rfl id hmem
  rw [(idCore_iff hvalid he).1 hid] at hwritten
  rw [runPass_recs]
  exact hwritten

theorem runPass_core_kept (hvalid : configValid s.cfg = true)
    (h : ¬ coreUpdated s.cfg (passUpd body s) = true) : (runPass body s).recs.core = s.recs.core := by
  by_contra hne
  rw [runPass_recs] at hne
  obtain ⟨id, e, hmem, he, htype⟩ := passLoop_writes _ (startPass body s) .core hne
  exact h ((coreUpdated_iff _ _).2 ⟨id, hmem, (idCore_iff hvalid he).2 htype⟩)

theorem runPass_odometryOk (hvalid : configValid s.cfg = true) (h : odometryOk s = true) :
    odometryOk (runPass body s) = true := by
  by_cases hcore : coreUpdated s.cfg (passUpd body s) = true
  · obtain ⟨hleft, hright⟩ := runPass_odo_seeded hcore
    exact odometryOk_of_seeded hleft hright (runPass_core_written hvalid hcore)
  · rwa [odometryOk_congr (runPass_odo_kept hcore) (runPass_core_kept hvalid hcore)]

end

/-! ### The invariant through the effects of an input event -/

/-- What a pass keeps of the invariant: widths and odometry, under a valid configuration. -/
structure PassInv (s : State) : Prop where
  valid : configValid s.cfg = true
  records : recordsOk s.cfg s.recs = true
  odometry : odometryOk s = true

theorem PassInv.runPass {s : State} (h : PassInv s) (body : Bytes) : PassInv (runPass body s) where
  valid := by rw [runPass_cfg]; exact h.valid
  records := by
    rw [runPass_cfg, runPass_recs]
    exact passLoop_recordsOk _ (s := startPass body s) (configValid_types h.valid) h.records
  odometry := runPass_odometryOk h.valid h.odometry

theorem PassInv.runIteration {s : State} (h : PassInv s) (bytes : Bytes) :
    PassInv (runIteration bytes s) :=
  runIteration_keeps PassInv (fun _ _ h => ⟨h.valid, h.records, h.odometry⟩)
    (fun _ _ h => ⟨h.valid, h.records, h.odometry⟩) (fun body _ h => h.runPass body) bytes h

/-- An iteration leaves the Framer as its bytes leave it. -/
theorem runIteration_framerOk (bytes : Bytes) {s : State} (h : framerOk s.cfg s.fr = true) :
    framerOk s.cfg (runIteration bytes s).fr = true := by
  have hfr : (runIteration bytes s).fr = (frameBytes bytes s).1.fr := by
    rw [runIteration, feedBytes_eq, reportEmptyRead_state]
    exact (runPasses_fr _ _).trans (frameBytes_congr bytes (s := s.emitAll _) (t := s) rfl rfl).1
  rw [hfr]
  exact frameBytes_framerOk bytes h

section
variable {s t : State}

theorem inv_of_commandEffect {i : Instr} (hinv : Inv s) (h : CommandEffect s i t)
    (hout : t.trace.all outputOk = true) : Inv t := by
  obtain ⟨hframer, hbuffer, hupdated, hrecords, hodometry, -, hrequests⟩ := hinv
  cases h <;> exact ⟨hframer, hbuffer, hupdated, hrecords, hodometry, hout, hrequests⟩

theorem inv_runIteration (bytes : Bytes) (hvalid : configValid s.cfg = true) (hinv : Inv s)
    (hout : (runIteration bytes s).trace.all outputOk = true) : Inv (runIteration bytes s) := by
  obtain ⟨hframer, hbuffer, hupdated, hrecords, hodometry, -, hrequests⟩ := hinv
  have hhost := sameHost_runIteration bytes s
  obtain ⟨hbuffer', hupdated'⟩ := runIteration_empty bytes hbuffer hupdated
  have hpasses := PassInv.runIteration ⟨hvalid, hrecords, hodometry⟩ bytes
  exact ⟨hhost.cfg ▸ runIteration_framerOk bytes hframer, hbuffer', hupdated', hpasses.records,
    hpasses.odometry, hout, hhost.queue ▸ hrequests⟩

/-- An input event keeps the invariant: it is a command effect, an output, a refusal or an iteration, and its
outputs are the effect's. -/
theorem Effect.inv {i : Instr} (hevent : i.isEvent = true) (hvalid : configValid s.cfg = true)
    (hinv : Inv s) (h : Effect s i t) : Inv t := by
  have hout : t.trace.all outputOk = true := by
    obtain ⟨new, htrace, hnew⟩ := h.outputs
    rw [htrace, List.all_append, hinv.outputs, hnew, Bool.and_self]
  cases h with
  | command h => exact inv_of_commandEffect hinv h hout
  | frames hi | decodes hi | drops hi | integrates hi => simp [hevent] at hi
  | passes | notifies => simp [Instr.isEvent] at hevent
  | encodes | emits | refuses =>
    obtain ⟨hframer, hbuffer, hupdated, hrecords, hodometry, -, hrequests⟩ := hinv
    exact ⟨hframer, hbuffer, hupdated, hrecords, hodometry, hout, hrequests⟩
  | iterates bytes => exact inv_runIteration bytes hvalid hinv hout

end

/-- Settles O51: a step does nothing or performs the oldest input event asked for. -/
theorem everyStepKeepsInvariant : Obligations.EveryStepKeepsInvariant := by
  intro s t hinv hstep
  obtain ⟨hvalid, rfl | ⟨i, rest, hqueue, hexec⟩⟩ := step_next hstep
  · exact hinv
  · obtain ⟨hframer, hbuffer, hupdated, hrecords, hodometry, houtputs, hrequests⟩ := hinv
    rw [hqueue, List.all_cons, Bool.and_eq_true] at hrequests
    have hinv : Inv { s with queue := rest } :=
      ⟨hframer, hbuffer, hupdated, hrecords, hodometry, houtputs, hrequests.2⟩
    exact Effect.inv (s := { s with queue := rest }) hrequests.1 hvalid hinv (exec_effect hexec)

end Sys2Proof.Machine
end

section
/-! Reading back what is written: every stimulus line (R116), command frames (R110, R112), and the spec's own words. -/

namespace Sys2Proof

open Machine

/-! ### Stimulus lines (R116) -/

theorem isWord_showSub (id : Byte) (w : Nat) : ∀ v ∈ showSub id w, isWord v :=
  List.forall_mem_cons.2 ⟨isWord_showByte id, List.forall_mem_singleton.2 (isWord_showNat w)⟩

/-- The operands of `GENERIC`: the command, the slash, the serializer's answer (R116). -/
theorem isWord_genericWords (cmd : Cmd) (a : Option Bytes) :
    ∀ v ∈ operandWords (.generic cmd a), isWord v := by
  have hslash : isWord ['/'] := isWord_of_all (by decide +kernel)
  cases cmd with
  | baseControl speed radius =>
    have hbase : isWord "BASE".toList := isWord_of_all (by decide +kernel)
    exact List.forall_mem_append.2 ⟨by
      simp only [List.forall_mem_cons]
      exact ⟨hbase, isWord_showInt _, isWord_showInt _, hslash, List.forall_mem_nil _⟩,
      isWord_showAnswer a⟩
  | other token =>
    have hother : isWord "OTHER".toList := isWord_of_all (by decide +kernel)
    exact List.forall_mem_append.2 ⟨by
      simp only [List.forall_mem_cons]
      exact ⟨hother, hslash, List.forall_mem_nil _⟩, isWord_showAnswer a⟩

/-- What an operation a line can carry writes after its name are words. -/
theorem isWord_operandWords {i : Instr} (h : i.writable = true) :
    ∀ v ∈ operandWords i, isWord v := by
  cases i with
  | frByte b | spUnknown b | spTrunc b => exact List.forall_mem_singleton.2 (isWord_showByte b)
  | frUpdate bs | dpPass bs | iter bs => exact isWord_map_showByte bs
  | spCore id w | spIr id w | spDockIr id w | spInertia id w | spCliff id w | spCurrent id w
  | spMagnet id w | spHw id w | spFw id w | spTime id w | spGyro id w | spEeprom id w
  | spGpin id w => exact isWord_showSub id w
  | dpNotify | getPose | getCmd | run | stop => exact List.forall_mem_nil _
  | odUpdate ts el er => simp [operandWords, isWord_showNat]
  | getWheel n => exact List.forall_mem_singleton.2 (isWord_showWheel h)
  | ceVelframe speed radius => simp [operandWords, isWord_showInt]
  | setVel v w => simp [operandWords, isWord_showRat]
  | generic cmd a => exact isWord_genericWords cmd a
  | getRec t => exact List.forall_mem_singleton.2 (isWord_recName t)

theorem isWord_encodeWords {i : Instr} (h : i.writable = true) : ∀ v ∈ encodeWords i, isWord v :=
  List.forall_mem_cons.2 ⟨isWord_opName (opOf i), isWord_operandWords h⟩

/-- The words of every operation a line can carry decode to it: the family of `Laws.RoundTrip`, gathered. -/
theorem decodeWords_encodeWords_ok {i : Instr} (h : i.writable = true) :
    decodeWords (encodeWords i) = .ok i := by
  open Laws.RoundTrip in
  refine (show Statement i from ?_) h
  cases i
  exacts [frByte _, frUpdate _, dpPass _, spCore _ _, spIr _ _, spDockIr _ _, spInertia _ _,
    spCliff _ _, spCurrent _ _, spMagnet _ _, spHw _ _, spFw _ _, spTime _ _, spGyro _ _,
    spEeprom _ _, spGpin _ _, spUnknown _, spTrunc _, dpNotify, odUpdate _ _ _, getWheel _, getPose,
    ceVelframe _ _, setVel _ _, generic _ _, getCmd, run, stop, iter _, getRec _]

/-- Settles O58: the bytes of a line are its characters, its characters split into its words, and its words
decode to the operation. -/
theorem stimulusLineRoundTrip : Obligations.StimulusLineRoundTrip := by
  intro i h
  have hwords := isWord_encodeWords h
  calc decode (encode i)
      = decodeLine (encodeLine i) := congrArg decodeLine (bytes_chars (joinWords_bytes hwords))
    _ = decodeWords (encodeWords i) := congrArg decodeWords (splitWords_joinWords hwords)
    _ = .ok i := decodeWords_encodeWords_ok h

/-! ### Command frames (R110, R112) -/

/-- The payload of a velocity command is read back with both operands (R110). -/
theorem commandOf_velPayload (speed radius : Word16) :
    commandOf (velPayload speed radius) = .ceVelframe speed radius := by
  have hmatch : commandOf (velPayload speed radius) =
      .ceVelframe (u16le (speed.extractLsb' 0 8) (speed.extractLsb' 8 8))
        (u16le (radius.extractLsb' 0 8) (radius.extractLsb' 8 8)) := rfl
  rw [hmatch, u16le_le16, u16le_le16]

/-- A payload that does not have a velocity command's length and id is a generic one (R112, log 21). -/
theorem commandOf_of_not_velocity {p : Bytes} (h : ¬ (p.length = 5 ∧ p.head? = some 0x01)) :
    commandOf p = .generic (.other 0) (some p) := by
  unfold commandOf
  split
  · next id s0 s1 r0 r1 =>
    have hid : id ≠ Config.velId := fun e => h ⟨rfl, congrArg some e⟩
    rw [if_neg hid]
  · rfl

/-- Settles O59: the frame is read back to its payload, and the payload to its operation. -/
theorem commandFrameRoundTrip : Obligations.CommandFrameRoundTrip := by
  refine ⟨fun speed radius => ?_, fun p hlen hgeneric => ?_⟩
  · rw [velFrame_eq, decodeCommand_frameOf (by rw [velPayload_length]; decide), commandOf_velPayload]
  · rw [decodeCommand_frameOf hlen, commandOf_of_not_velocity hgeneric]

/-! ### Words written out -/

/-- Settles O60, by evaluating the decoders on each word. -/
theorem writtenWordsDecode : Obligations.WrittenWordsDecode := by
  unfold Obligations.WrittenWordsDecode
  decide +kernel

end Sys2Proof
end
